-- ==== Sys2Proof/Word.lean ====
section
/-! DEFINITION. The unit of the command-stream space and of the write byte: the 8-bit byte (rules R33, R48). -/

namespace Sys2Proof

/-- One byte of the command stream, or one PSG write byte. -/
abbrev Byte := BitVec 8

end Sys2Proof
end

