-- ==== Sys2Proof/Config.lean ====
section
/-! DEFINITION. The arguments of a run (rule R5) and the values `State.reset` takes for them.

The block has no free value: rule R120 says it has no implementation-chosen value, so nothing here is opaque. -/

namespace Sys2Proof

/-- Which mixer feeds the output port (rules R5, R10, R95); the register `OUTMODE` holds 0 for mono and 1 for stereo. -/
inductive OutMode where
  | mono
  | stereo
  deriving DecidableEq, Repr

/-- The implementation parameters of rule R5: what `Construct` is given. -/
structure Params where
  /-- `CLK_RAW`: bits 29:0 the clock in Hz, bits 31:30 out-of-band flags. -/
  clkRaw : BitVec 32
  /-- `FB_IN`: the white-noise tap pattern. -/
  fbIn : BitVec 16
  /-- `SRW_IN`: the shift-register width, legal only as 16. -/
  srwIn : BitVec 8
  /-- `FLAGS_IN`: the behaviour flags, legal only as 0. -/
  flagsIn : BitVec 8
  /-- `RATE_IN`: the requested output rate in Hz, 0 selecting 44100. -/
  rateIn : BitVec 32
  /-- `Q_IN`: 0 the fast path, anything else the accurate path. -/
  qIn : BitVec 8
  /-- `OUTMODE_IN`. -/
  outModeIn : OutMode
  /-- `STREAM`: the command bytes; `LEN` is its length. -/
  stream : List Byte
  /-- `DATA_OFFSET`: the index of the first command. -/
  dataOffset : BitVec 32
  deriving DecidableEq, Repr

/-- DESIGN CHOICE (log entry 1): the arguments `State.reset` is constructed from.
The spec leaves them open; the clock is the one of its worked examples (rules R91, R92), the feedback
pattern, width and flags are its defaults (rule R5), `Q_IN = 0` its default, and no stream is loaded. -/
def Config.resetParams : Params where
  clkRaw := 3579545#32
  fbIn := 0x0009#16
  srwIn := 16#8
  flagsIn := 0#8
  rateIn := 0#32
  qIn := 0#8
  outModeIn := .mono
  stream := []
  dataOffset := 0#32

end Sys2Proof
end

