-- ==== Sys2Proof/Machine/State.lean ====
section
/-! DEFINITION. Everything the spec gives the machine (rules R9 to R28), the command-stream space (rule R33),
the pending host calls (rule R106), the reasons a step stops, and the state after reset (rule R30). -/

namespace Sys2Proof.Machine

/-- Rule R20: `NMODE`, 0 = periodic, 1 = white. -/
inductive NoiseMode where
  | periodic
  | white
  deriving DecidableEq, Repr

/-- The registers of one tone channel `i` (rules R12 to R16, R23). -/
structure Tone where
  /-- `TP[i]`, 10 bits: the period (R12). -/
  tp : BitVec 10
  /-- `TC[i]`, 11 bits: the 10-bit phase count and the wrap bit (R13). -/
  tc : BitVec 11
  /-- `EDGE[i]`, 1 bit: 1 is high (R14). -/
  edge : Bool
  /-- `ATT[i]`, 4 bits: the attenuation (R15). -/
  att : BitVec 4
  /-- `MUTE[i]`, 1 bit (R16). -/
  mute : Bool
  /-- `ACC[i]`, 16 bits: the smoothed output accumulator (R23). -/
  acc : BitVec 16
  deriving DecidableEq, Repr

/-- The registers of the noise channel, channel 3 (rules R15, R17 to R20, R23). -/
structure Noise where
  /-- `SEED`, 16 bits: the linear-feedback shift register (R17). -/
  seed : BitVec 16
  /-- `NC`, 9 bits: the 8-bit phase count and the wrap bit (R18). -/
  nc : BitVec 9
  /-- `NP`, 9 bits: the shift-rate period (R19). -/
  np : BitVec 9
  /-- `NMODE`, 1 bit (R20). -/
  nmode : NoiseMode
  /-- `NREF`, 1 bit: the period tracks `TP[2]` (R20). -/
  nref : Bool
  /-- `ATT[3]`, 4 bits (R15). -/
  att : BitVec 4
  /-- `ACC[3]`, 16 bits (R23). -/
  acc : BitVec 16
  deriving DecidableEq, Repr

/-- The registers of the PSG core: exactly those `Reset()` writes (rule R112). -/
structure PsgCore where
  /-- Tone channel 0. -/
  tone0 : Tone
  /-- Tone channel 1. -/
  tone1 : Tone
  /-- Tone channel 2. -/
  tone2 : Tone
  /-- The noise channel. -/
  noise : Noise
  /-- `LATCH`, 3 bits: the address last latched (R21). -/
  latch : BitVec 3
  /-- `STEREO`, 8 bits: the panning mask (R22). -/
  stereo : BitVec 8
  /-- `BPH`, 24 bits: the fraction of a chip tick (R24). -/
  bph : BitVec 24
  deriving DecidableEq, Repr

/-- The sample-rate converter and the step constants (rules R11, R24, R25). -/
structure RateRegs where
  /-- `RATE`, 32 bits: the output rate in Hz (R11). -/
  rate : BitVec 32
  /-- `BINC`, 32 bits: chip ticks per `AdvanceTick`, 8.24 fixed point (R24). -/
  binc : BitVec 32
  /-- `RSTEP`, 32 bits: the duration of an output sample (R25). -/
  rstep : BitVec 32
  /-- `CSTEP`, 32 bits: the duration of a chip tick (R25). -/
  cstep : BitVec 32
  /-- `CTIME`, 32 bits: how far chip time is ahead of output time (R25). -/
  ctime : BitVec 32
  deriving DecidableEq, Repr

/-- The configuration registers, written only by `Construct` (rule R10). -/
structure ConfigRegs where
  /-- `CLK`, 30 bits. -/
  clk : BitVec 30
  /-- `CLKFLAGS`, 2 bits: read by nothing. -/
  clkFlags : BitVec 2
  /-- `FB`, 16 bits: the white-noise tap mask. -/
  fb : BitVec 16
  /-- `SRW`, 8 bits: 16 in every legal configuration. -/
  srw : BitVec 8
  /-- `FLAGS`, 8 bits: 0 in every legal configuration. -/
  flags : BitVec 8
  /-- `Q`, 8 bits: 0 the fast path, otherwise the accurate path. -/
  q : BitVec 8
  /-- `OUTMODE`, 1 bit. -/
  outMode : OutMode
  deriving DecidableEq, Repr

/-- Rule R27: `STATUS`. -/
inductive Status where
  | run
  | halt
  | fault
  deriving DecidableEq, Repr

/-- The registers of the command-stream decoder (rules R26, R27). -/
structure CsdRegs where
  /-- `CUR`, 32 bits: the index of the next command's opcode (R26). -/
  cur : BitVec 32
  /-- `STATUS` (R27). -/
  status : Status
  /-- `FCODE`, 2 bits: 0 no fault, 1 `UnsupportedOpcode`, 2 `TruncatedStream` (R27, R96). -/
  fcode : BitVec 2
  /-- `FBYTE`, 8 bits (R27). -/
  fbyte : BitVec 8
  /-- `FADDR`, 32 bits (R27). -/
  faddr : BitVec 32
  deriving DecidableEq, Repr

/-- One output item (rules R28, R40): a signed 16-bit number, or a pair of signed 32-bit numbers, left first. -/
inductive Item where
  | mono (v : Int)
  | stereo (l r : Int)
  deriving DecidableEq, Repr

/-- The command-stream space (rules R33, R34): `STREAM` as its non-zero bytes at strictly rising indices,
and its length. An index below `len` that is not listed holds 0x00 (log entry 2). -/
structure Stream where
  /-- The listed bytes of `STREAM`. -/
  mem : List Host.Cell
  /-- `LEN`. -/
  len : Nat
  deriving DecidableEq, Repr

/-- The host operations of rule R106 that act in mid-run. -/
inductive HostOp where
  /-- `Reset()` (R112). -/
  | reset
  /-- `SetRate(r)` (R91). -/
  | setRate (r : BitVec 32)
  deriving DecidableEq, Repr

/-- A host call still to come: it takes place once `delay` more core operations (`Write` or `Sample`) have been
made, counted from the call before it (rules R106, R120; open parameter P7; log entry 6). -/
structure HostCall where
  delay : Nat
  op : HostOp
  deriving DecidableEq, Repr

/-- The machine: the registers of rules R10 to R28, the stream, and the host's pending calls. -/
structure State where
  cfg : ConfigRegs
  src : RateRegs
  psg : PsgCore
  csd : CsdRegs
  /-- `OUT`, newest item first; `State.out` is the history in the order of emission (R28; log entry 12). -/
  outRev : List Item
  stream : Stream
  /-- The host's calls still to come, earliest first (R106). -/
  host : List HostCall
  deriving DecidableEq, Repr

/-- `OUT`, the output history in the order of emission (rule R28). -/
def State.out (s : State) : List Item := s.outRev.reverse

/-- Why a step has no next state: the run is over (rule R102: in `HALT` and in `FAULT` the CSD has no enabled
step; log entry 10). The two faults of rule R96 are not here: their entry is a next state (rule R101). -/
inductive Fault where
  /-- Raised by `step` when `STATUS = HALT`: the run ended at END. Safe: the hardware has no step either (R59, R102). -/
  | runHalted
  /-- Raised by `step` when `STATUS = FAULT`: the run ended at a fault. Safe: the hardware has no step either (R102). -/
  | runFaulted
  deriving DecidableEq, Repr

/-- Why the model gives a step no meaning. -/
inductive Refusal where
  /-- Raised by an arm of `exec` that has no meaning yet; no arm does. Safe: nothing is claimed of it. -/
  | notModelled (mnemonic : String)
  /-- Raised by `step` and `construct` on a configuration outside `ConfigLegal` (R6, R109, R111). Safe: the spec
  gives such a run no meaning. -/
  | configurationRefused
  /-- Raised by `step` and the wait commands when a host `SetRate` takes effect whose rate leaves
  `ConfigLegal` (R91). Safe: the spec gives such a run no meaning. -/
  | rateRefused
  deriving DecidableEq, Repr

/-- A tone channel after `Reset()` (rules R30, R112). -/
def Tone.reset : Tone where
  tp := 0#10
  tc := 0#11
  edge := false
  att := 15#4
  mute := false
  acc := 0#16

/-- The noise channel after `Reset()` (rules R30, R112). -/
def Noise.reset : Noise where
  seed := 0x8000#16
  nc := 0#9
  np := 0#9
  nmode := .periodic
  nref := false
  att := 15#4
  acc := 0#16

/-- The PSG core after `Reset()` (rules R30, R112). -/
def PsgCore.reset : PsgCore where
  tone0 := Tone.reset
  tone1 := Tone.reset
  tone2 := Tone.reset
  noise := Noise.reset
  latch := 0#3
  stereo := 0xFF#8
  bph := 0#24

/-- The state after `Construct` (rule R30) with the arguments `Config.resetParams` (log entry 1): no stream is
loaded and no host call is pending. `test_reset_is_constructed` says that `construct` gives this state. -/
def State.reset : State where
  cfg :=
    { clk := 3579545#30, clkFlags := 0#2, fb := 0x0009#16, srw := 16#8, flags := 0#8, q := 0#8, outMode := .mono }
  src := { rate := 44100#32, binc := 85111677#32, rstep := 0#32, cstep := 0#32, ctime := 0#32 }
  psg := PsgCore.reset
  csd := { cur := 0#32, status := .run, fcode := 0#2, fbyte := 0#8, faddr := 0#32 }
  outRev := []
  stream := { mem := [], len := 0 }
  host := []

end Sys2Proof.Machine
end

