-- ==== Sys2Proof/Machine/Eval.lean ====
section
/-! DEFINITION. Evaluation order. Each function here is the identity in meaning (`evaluated x f = f x`, proved in
Laws/Eval.lean); it makes an evaluator compute the registers before a loop goes round again, so that a
wait of many samples can be run. No rule of the spec is coded here. -/

namespace Sys2Proof.Machine

/-- Compute the bits of `x`, then go on with `f x`. -/
def evaluated {α : Type} {w : Nat} (x : BitVec w) (f : BitVec w → α) : α :=
  match x.toNat with
  | 0 => f (BitVec.ofNat w 0)
  | k + 1 => f (BitVec.ofNat w (k + 1))

/-- Compute a flag, then go on with it. -/
def evaluatedFlag {α : Type} (b : Bool) (f : Bool → α) : α :=
  match b with
  | true => f true
  | false => f false

/-- Compute the registers of a tone channel, then go on. -/
def Tone.evaluated {α : Type} (t : Tone) (f : Tone → α) : α :=
  Machine.evaluated t.tp fun tp => Machine.evaluated t.tc fun tc => evaluatedFlag t.edge fun edge =>
    Machine.evaluated t.att fun att => evaluatedFlag t.mute fun mute => Machine.evaluated t.acc fun acc =>
      f { tp := tp, tc := tc, edge := edge, att := att, mute := mute, acc := acc }

/-- Compute the mode of the noise channel, then go on. -/
def NoiseMode.evaluated {α : Type} (m : NoiseMode) (f : NoiseMode → α) : α :=
  match m with
  | .periodic => f .periodic
  | .white => f .white

/-- Compute the registers of the noise channel, then go on. -/
def Noise.evaluated {α : Type} (z : Noise) (f : Noise → α) : α :=
  Machine.evaluated z.seed fun seed => Machine.evaluated z.nc fun nc => Machine.evaluated z.np fun np =>
    z.nmode.evaluated fun nmode => evaluatedFlag z.nref fun nref => Machine.evaluated z.att fun att =>
      Machine.evaluated z.acc fun acc =>
        f { seed := seed, nc := nc, np := np, nmode := nmode, nref := nref, att := att, acc := acc }

/-- Compute the registers of the PSG core, then go on. -/
def PsgCore.evaluated {α : Type} (p : PsgCore) (f : PsgCore → α) : α :=
  p.tone0.evaluated fun t0 => p.tone1.evaluated fun t1 => p.tone2.evaluated fun t2 => p.noise.evaluated fun z =>
    Machine.evaluated p.latch fun latch => Machine.evaluated p.stereo fun stereo => Machine.evaluated p.bph fun bph =>
      f { tone0 := t0, tone1 := t1, tone2 := t2, noise := z, latch := latch, stereo := stereo, bph := bph }

/-- Compute the configuration registers a sample reads, then go on. -/
def ConfigRegs.evaluated {α : Type} (c : ConfigRegs) (f : ConfigRegs → α) : α :=
  Machine.evaluated c.clk fun clk => Machine.evaluated c.clkFlags fun clkFlags => Machine.evaluated c.fb fun fb =>
    Machine.evaluated c.srw fun srw => Machine.evaluated c.flags fun flags => Machine.evaluated c.q fun q =>
      match c.outMode with
      | .mono => f { clk := clk, clkFlags := clkFlags, fb := fb, srw := srw, flags := flags, q := q, outMode := .mono }
      | .stereo =>
        f { clk := clk, clkFlags := clkFlags, fb := fb, srw := srw, flags := flags, q := q, outMode := .stereo }

/-- Compute the step constants and `CTIME`, then go on. -/
def RateRegs.evaluated {α : Type} (x : RateRegs) (f : RateRegs → α) : α :=
  Machine.evaluated x.rate fun rate => Machine.evaluated x.binc fun binc => Machine.evaluated x.rstep fun rstep =>
    Machine.evaluated x.cstep fun cstep => Machine.evaluated x.ctime fun ctime =>
      f { rate := rate, binc := binc, rstep := rstep, cstep := cstep, ctime := ctime }

/-- Compute the registers that a sample reads and moves, then go on. -/
def State.evaluated {α : Type} (s : State) (f : State → α) : α :=
  s.cfg.evaluated fun cfg => s.src.evaluated fun src => s.psg.evaluated fun psg =>
    f { s with cfg := cfg, src := src, psg := psg }

end Sys2Proof.Machine
end

