-- ==== Sys2Proof/Machine/Memory.lean ====
section
/-! DEFINITION. The command-stream space (rules R33 to R38): reading it, its canonical form, and how a
stream is placed in it from outside. The hardware never writes it (rule R34). -/

namespace Sys2Proof.Machine

/-- What an index below `LEN` that is not listed holds (log entry 2). -/
def Memory.unlisted : Byte := 0x00#8

/-- The byte at index `a`. -/
def Memory.read (m : List Host.Cell) (a : Nat) : Byte :=
  match m with
  | [] => Memory.unlisted
  | (k, b) :: rest => if k = a then b else Memory.read rest a

/-- Every listed index of `m` is above `a`. -/
def Memory.above (a : Nat) (m : List Host.Cell) : Bool := m.all (fun c => decide (a < c.1))

/-- The canonical form: indices strictly rising, no byte that an unlisted index would read as. -/
def Memory.wf (m : List Host.Cell) : Bool :=
  match m with
  | [] => true
  | (k, b) :: rest => Memory.above k rest && decide (b ≠ Memory.unlisted) && Memory.wf rest

/-- Put a byte in front of a list whose indices are all above it, keeping the form. -/
def Memory.cons (a : Nat) (b : Byte) (m : List Host.Cell) : List Host.Cell :=
  if b = Memory.unlisted then m else (a, b) :: m

/-- Place a byte from outside the machine, keeping the form. No operation of the hardware uses it. -/
def Memory.write (m : List Host.Cell) (a : Nat) (b : Byte) : List Host.Cell :=
  match m with
  | [] => Memory.cons a b []
  | (k, c) :: rest =>
    if a < k then Memory.cons a b ((k, c) :: rest)
    else if k = a then Memory.cons a b rest
    else (k, c) :: Memory.write rest a b

/-- The listed form of a byte sequence that begins at index `a`. -/
def Memory.ofBytes (a : Nat) (bs : List Byte) : List Host.Cell :=
  match bs with
  | [] => []
  | b :: rest => Memory.cons a b (Memory.ofBytes (a + 1) rest)

/-- Place a byte sequence at index `a`, from outside the machine. -/
def Memory.place (m : List Host.Cell) (a : Nat) (bs : List Byte) : List Host.Cell :=
  match bs with
  | [] => m
  | b :: rest => Memory.write (Memory.place m (a + 1) rest) a b

/-- The stream a byte sequence is (rule R5). -/
def Stream.ofBytes (bs : List Byte) : Stream := { mem := Memory.ofBytes 0 bs, len := bs.length }

/-- The byte `STREAM[a]` (rule R34), for `a < LEN`. -/
def Stream.read (st : Stream) (a : Nat) : Byte := Memory.read st.mem a

/-- The canonical form of the stream: its bytes' form, and no byte listed at or past `LEN`. -/
def Stream.wf (st : Stream) : Bool := Memory.wf st.mem && st.mem.all (fun c => decide (c.1 < st.len))

/-- The bytes `STREAM[a ..]`, at most `n` of them, stopping at `LEN`: what the decoder can see (rule R34). Reads
have no side effect, so looking at bytes a command does not use is not observable (rule R37; log entry 11). -/
def Stream.window (st : Stream) (a n : Nat) : List Byte :=
  match n with
  | 0 => []
  | n + 1 => if a < st.len then st.read a :: Stream.window st (a + 1) n else []

/-- The longest command, in bytes (rule R44). -/
def maxCommandLength : Nat := 3

/-- The bytes at the cursor. -/
def State.fetchBytes (s : State) : List Byte := s.stream.window s.csd.cur.toNat maxCommandLength

end Sys2Proof.Machine
end

