-- ==== Sys2Proof/Machine/Rate.lean ====
section
/-! DEFINITION. The step constants and the legality of a configuration (rules R6, R91 to R93). -/

namespace Sys2Proof.Machine

/-- Rule R91: a requested rate of 0 selects 44100. -/
def effectiveRate (r : BitVec 32) : BitVec 32 := if r = 0#32 then 44100#32 else r

/-- Rule R92: the fast path's quotient, before it is stored in 32 bits. -/
def fastQuotient (clk : BitVec 30) (rate : BitVec 32) : Nat := clk.toNat * 2 ^ 20 / rate.toNat

/-- Rule R92: `BincOf`. -/
def bincOf (clk : BitVec 30) (rate : BitVec 32) (q : BitVec 8) : BitVec 32 :=
  if q = 0#8 then BitVec.ofNat 32 (fastQuotient clk rate) else BitVec.ofNat 32 (2 ^ 24)

/-- Rule R93: `RstepOf`. -/
def rstepOf (rate : BitVec 32) (q : BitVec 8) : BitVec 32 :=
  if q = 0#8 then 0#32 else BitVec.ofNat 32 (2 ^ 31 / rate.toNat)

/-- Rule R93: `CstepOf`. -/
def cstepOf (clk : BitVec 30) (q : BitVec 8) : BitVec 32 :=
  if q = 0#8 then 0#32 else BitVec.ofNat 32 (2 ^ 31 / (clk.toNat / 16))

/-- Rule R6: `ConfigLegal`, with `rateIn` the requested rate (0 standing for 44100). -/
def configLegal (cfg : ConfigRegs) (rateIn : BitVec 32) (len : Nat) : Bool :=
  decide (cfg.clk ≠ 0#30) && decide (cfg.srw = 16#8) && decide (cfg.flags = 0#8) &&
    (decide (cfg.q ≠ 0#8) || decide (fastQuotient cfg.clk (effectiveRate rateIn) < 2 ^ 32)) &&
    (decide (cfg.q = 0#8) || decide (16 ≤ cfg.clk.toNat)) && decide (len < 2 ^ 32)

/-- Rule R6 on the registers of a state. -/
def State.configLegal (s : State) : Bool := Machine.configLegal s.cfg s.src.rate s.stream.len

/-- Rule R91: the step constants for the rate `RATE <- (r = 0) ? 44100 : r`; `CTIME` is kept. -/
def RateRegs.forRate (cfg : ConfigRegs) (r : BitVec 32) (x : RateRegs) : RateRegs :=
  { rate := effectiveRate r
    binc := bincOf cfg.clk (effectiveRate r) cfg.q
    rstep := rstepOf (effectiveRate r) cfg.q
    cstep := cstepOf cfg.clk cfg.q
    ctime := x.ctime }

end Sys2Proof.Machine
end

