-- ==== Sys2Proof/Machine/HostOps.lean ====
section
/-! DEFINITION. The host interface (rules R91, R106, R111, R112): `Construct`, `Reset()`, `SetRate`, and when a
pending call of the host takes place. -/

namespace Sys2Proof.Machine

/-- Rule R112: `Reset()`. It writes every register of the PSG core and no other. -/
def hostReset (s : State) : State := { s with psg := PsgCore.reset }

/-- Rule R91: `SetRate(r)`; none where the spec refuses it. -/
def hostSetRate (r : BitVec 32) (s : State) : Option State :=
  if configLegal s.cfg r s.stream.len then some { s with src := s.src.forRate s.cfg r } else none

/-- One host operation; none where the spec refuses it. -/
def HostOp.apply (op : HostOp) (s : State) : Option State :=
  match op with
  | .reset => some (hostReset s)
  | .setRate r => hostSetRate r s

/-- Let every pending call take place whose delay has run out (rule R106). -/
def runDue (calls : List HostCall) (s : State) : Option State :=
  match calls with
  | [] => some { s with host := [] }
  | c :: rest =>
    if c.delay = 0 then
      match c.op.apply s with
      | some s' => runDue rest s'
      | none => none
    else some { s with host := c :: rest }

/-- A point between two core operations, where the host may act (rule R106; log entry 7). -/
def hostTurn (s : State) : Option State := runDue s.host s

/-- The pending calls after one more core operation: the first one is one operation nearer. -/
def afterCoreOp (calls : List HostCall) : List HostCall :=
  match calls with
  | [] => []
  | c :: rest => { c with delay := c.delay - 1 } :: rest

/-- The registers `Construct` loads from its arguments (rule R111). -/
def Params.configRegs (p : Params) : ConfigRegs where
  clk := p.clkRaw.extractLsb' 0 30
  clkFlags := p.clkRaw.extractLsb' 30 2
  fb := p.fbIn
  srw := p.srwIn
  flags := p.flagsIn
  q := p.qIn
  outMode := p.outModeIn

/-- Rule R6 on the arguments of a run. -/
def Params.legal (p : Params) : Bool := configLegal (Params.configRegs p) p.rateIn p.stream.length

/-- The state `Construct` leaves, its arguments being legal (rules R30, R111). `RateRegs.forRate` keeps `CTIME`,
which is 0 here. -/
def constructed (p : Params) : State where
  cfg := Params.configRegs p
  src := RateRegs.forRate (Params.configRegs p) p.rateIn
    { rate := 0#32, binc := 0#32, rstep := 0#32, cstep := 0#32, ctime := 0#32 }
  psg := PsgCore.reset
  csd := { cur := p.dataOffset, status := .run, fcode := 0#2, fbyte := 0#8, faddr := 0#32 }
  outRev := []
  stream := Stream.ofBytes p.stream
  host := []

/-- Rule R111: `Construct(params)`. -/
def construct (p : Params) : Host.Outcome State Fault Refusal :=
  if Params.legal p then .next (constructed p) else .refused .configurationRefused

/-- The host's calls for a run, given when it is constructed (open parameter P7). -/
def State.withHostCalls (s : State) (calls : List HostCall) : State := { s with host := calls }

end Sys2Proof.Machine
end

