-- ==== Sys2Proof/Machine/Flags.lean ====
section
/-! DEFINITION. The one-bit values the tick engine computes. The hardware has no condition codes (rule R14): the
flag-like state is `EDGE`, and the tests are the two threshold crossings and the feedback bit. -/

namespace Sys2Proof.Machine

/-- Rule R82: a tone counter has crossed its threshold 1024 when bit 10 is set. -/
def toneCrossed (tc : BitVec 11) : Bool := tc.getLsbD 10

/-- Rule R79: the noise counter has crossed its threshold 256 when bit 8 is set. -/
def noiseCrossed (nc : BitVec 9) : Bool := nc.getLsbD 8

/-- Rules R82, R84: periods 0 and 1 are degenerate. -/
def toneToggles (tp : BitVec 10) : Bool := decide (1 < tp.toNat)

/-- Rule R82: the edge after a crossing: toggled, or forced high for a degenerate period. -/
def edgeAfterCrossing (tp : BitVec 10) (edge : Bool) : Bool := if toneToggles tp then !edge else true

/-- Rule R7: `parity16`, the exclusive or of the 16 bits. -/
def parity16 (x : BitVec 16) : Bool := (List.range 16).foldl (fun p i => p ^^ x.getLsbD i) false

/-- Rule R80: the feedback bit: the parity of the tapped bits in white mode, bit 0 in periodic mode. -/
def feedbackBit (mode : NoiseMode) (fb seed : BitVec 16) : Bool :=
  match mode with
  | .white => parity16 (seed &&& fb)
  | .periodic => seed.getLsbD 0

end Sys2Proof.Machine
end

