-- ==== Sys2Proof/Syntax.lean ====
section
/-! DEFINITION. The instructions: one constructor per row of spec/opcode_table.json, in the table's order.

Five stream commands (level 1, rule R46) and nine forms of the PSG write byte (level 2, rule R51).
A level-2 form is the operand byte of a WR command: `WR LT0 3` is the bytes `50 83` (rule R53). -/

namespace Sys2Proof

/-- One instruction. Counts are the counts of the assembler syntax of rule R53; `d` and `e` are the
data fields of formats PL and PD (rule R48), the bits the spec ignores included. -/
inductive Instr where
  /-- WR (R55): hand the write byte `dd` to the PSG core. -/
  | wr (dd : Byte)
  /-- WAIT (R56): generate `n` samples, `0 ≤ n ≤ 65535`. -/
  | wait (n : Nat)
  /-- WAIT735 (R57): generate 735 samples. -/
  | wait735
  /-- END (R59): end of stream. -/
  | endOfStream
  /-- WAITS (R58): generate `n` samples, `1 ≤ n ≤ 16`. -/
  | waits (n : Nat)
  /-- LT0 (R65): latch tone 0, low 4 period bits. -/
  | lt0 (d : BitVec 4)
  /-- LV0 (R68): latch volume 0. -/
  | lv0 (d : BitVec 4)
  /-- LT1 (R66): latch tone 1, low 4 period bits. -/
  | lt1 (d : BitVec 4)
  /-- LV1 (R69): latch volume 1. -/
  | lv1 (d : BitVec 4)
  /-- LT2 (R67): latch tone 2, low 4 period bits. -/
  | lt2 (d : BitVec 4)
  /-- LV2 (R70): latch volume 2. -/
  | lv2 (d : BitVec 4)
  /-- LN (R71): latch noise control; bit 3 of `d` is ignored. -/
  | ln (d : BitVec 4)
  /-- LV3 (R72): latch noise volume. -/
  | lv3 (d : BitVec 4)
  /-- DATA (R73): data for the latched register; bit 6 of `e` is ignored. -/
  | data (e : BitVec 7)
  deriving DecidableEq, Repr

/-- The two levels of the instruction set (rule R1), the `"level"` of an opcode-table row. -/
inductive Level where
  | stream
  | writeByte
  deriving DecidableEq, Repr

/-- The level of an instruction. -/
def Instr.level : Instr → Level
  | .wr _ => .stream
  | .wait _ => .stream
  | .wait735 => .stream
  | .endOfStream => .stream
  | .waits _ => .stream
  | .lt0 _ => .writeByte
  | .lv0 _ => .writeByte
  | .lt1 _ => .writeByte
  | .lv1 _ => .writeByte
  | .lt2 _ => .writeByte
  | .lv2 _ => .writeByte
  | .ln _ => .writeByte
  | .lv3 _ => .writeByte
  | .data _ => .writeByte

end Sys2Proof
end

