-- ==== Sys2Proof/WellFormed.lean ====
section
/-! DEFINITION. Which instructions an encoding exists for: the operand ranges of rule R53.

The other operands are bit vectors of their field's own width, so every value of them is legal
(rule R52: all 256 values of `dd`; rule R51: no illegal write byte). -/

namespace Sys2Proof

/-- The operand ranges of rule R53: a WAIT count fits the 16-bit operand, a WAITS count is 1 to 16. -/
def Instr.wellFormed : Instr → Bool
  | .wr _ => true
  | .wait n => decide (n ≤ 65535)
  | .wait735 => true
  | .endOfStream => true
  | .waits n => decide (1 ≤ n) && decide (n ≤ 16)
  | .lt0 _ => true
  | .lv0 _ => true
  | .lt1 _ => true
  | .lv1 _ => true
  | .lt2 _ => true
  | .lv2 _ => true
  | .ln _ => true
  | .lv3 _ => true
  | .data _ => true

end Sys2Proof
end

