-- ==== Sys2Proof/Decode.lean ====
section
/-! DEFINITION. The decoder of the command stream (level 1), the decoder of the write byte (level 2), and
the encoder, from the tables of spec/30_encoding.md. -/

namespace Sys2Proof

/-- Why the level-1 decoder refuses a byte list. Each is a fault of the machine (rule R96). -/
inductive DecodeError where
  /-- No opcode byte, or an operand byte missing (rule R98). -/
  | truncatedStream
  /-- Byte 0 is in none of the five command kinds (rule R97). -/
  | unsupportedOpcode (op : Byte)
  deriving DecidableEq, Repr

/-- Rule R45: the length of a command is a function of byte 0 alone. -/
def commandLength (op : Byte) : Option Nat :=
  if op = 0x50#8 then some 2
  else if op = 0x61#8 then some 3
  else if op = 0x62#8 then some 1
  else if op.extractLsb' 4 4 = 0x7#4 then some 1
  else if op = 0x66#8 then some 1
  else none

/-- The WAIT operand: little-endian, `lo + 256 * hi` (rules R35, R47). -/
def waitCount (lo hi : Byte) : Nat := lo.toNat + 256 * hi.toNat

/-- The WAITS operand: `(opcode & 0x0F) + 1` (rules R47, R58). -/
def waitsCount (op : Byte) : Nat := (op &&& 0x0F#8).toNat + 1

/-- The level-1 decoder: one command off the front of the bytes and what follows it (rules R44 to R47).
Tested in the order of rule R99: no opcode byte, unrecognised opcode, missing operand bytes. -/
def decode : List Byte → Except DecodeError (Instr × List Byte)
  | [] => .error .truncatedStream
  | op :: rest =>
    if op = 0x50#8 then
      match rest with
      | dd :: r => .ok (.wr dd, r)
      | [] => .error .truncatedStream
    else if op = 0x61#8 then
      match rest with
      | lo :: hi :: r => .ok (.wait (waitCount lo hi), r)
      | [_] => .error .truncatedStream
      | [] => .error .truncatedStream
    else if op = 0x62#8 then .ok (.wait735, rest)
    else if op.extractLsb' 4 4 = 0x7#4 then .ok (.waits (waitsCount op), rest)
    else if op = 0x66#8 then .ok (.endOfStream, rest)
    else .error (.unsupportedOpcode op)

/-- The 4-bit data field `d = v[3:0]` of format PL (rule R48). -/
def plData (v : Byte) : BitVec 4 := v.extractLsb' 0 4

/-- The 3-bit register address `a = v[6:4]` of format PL (rules R29, R48). -/
def plAddr (v : Byte) : BitVec 3 := v.extractLsb' 4 3

/-- The level-2 decoder, total on all 256 write bytes (rule R51). -/
def decodeWrite (v : Byte) : Instr :=
  if v.getLsbD 7 then
    match (plAddr v).toNat with
    | 0 => .lt0 (plData v)
    | 1 => .lv0 (plData v)
    | 2 => .lt1 (plData v)
    | 3 => .lv1 (plData v)
    | 4 => .lt2 (plData v)
    | 5 => .lv2 (plData v)
    | 6 => .ln (plData v)
    | _ => .lv3 (plData v)
  else .data (v.extractLsb' 0 7)

/-- The word of an instruction: a stream command's bytes in order (rules R44, R53), or the single byte
of a write-byte form (rule R51, from its match value and data field). -/
def encode : Instr → List Byte
  | .wr dd => [0x50#8, dd]
  | .wait n => [0x61#8, BitVec.ofNat 8 (n % 256), BitVec.ofNat 8 (n / 256)]
  | .wait735 => [0x62#8]
  | .endOfStream => [0x66#8]
  | .waits n => [0x70#8 + BitVec.ofNat 8 (n - 1)]
  | .lt0 d => [0x8#4 ++ d]
  | .lv0 d => [0x9#4 ++ d]
  | .lt1 d => [0xA#4 ++ d]
  | .lv1 d => [0xB#4 ++ d]
  | .lt2 d => [0xC#4 ++ d]
  | .lv2 d => [0xD#4 ++ d]
  | .ln d => [0xE#4 ++ d]
  | .lv3 d => [0xF#4 ++ d]
  | .data e => [0#1 ++ e]

/-- The bytes that make the command stream run `i`: a stream command's own bytes; for a write-byte form the
WR command that carries it (rules R39, R53: the write byte reaches the PSG core as the operand of WR). -/
def streamBytes (i : Instr) : List Byte :=
  match i.level with
  | .stream => encode i
  | .writeByte => 0x50#8 :: encode i

/-- The bytes of an opcode-table word, byte 0 first, the bits above `nbits` zero, up to three bytes. -/
def tableBytes (nbits w : Nat) : List Byte :=
  let v := w % 2 ^ nbits
  [BitVec.ofNat 8 v, BitVec.ofNat 8 (v / 256), BitVec.ofNat 8 (v / 65536)]

/-- What the decoder reads from a word of spec/opcode_table.json. The table lists two levels in one number
space: a word whose byte 0 is a stream opcode is a stream command, any other one-byte word is a write byte
(log entry 4). -/
def decodeTableWord (nbits w : Nat) : Option Instr :=
  match decode (tableBytes nbits w) with
  | .ok (i, _) => some i
  | .error _ => if w % 2 ^ nbits < 256 then some (decodeWrite (BitVec.ofNat 8 (w % 2 ^ nbits))) else none

/-- Where the bytes of an opcode-table word lie in the command stream: a stream command as it is, a write
byte as the operand of WR (log entry 4). -/
def tableLayout (nbits w : Nat) : List Byte :=
  match decode (tableBytes nbits w) with
  | .ok _ => tableBytes nbits w
  | .error _ => if w % 2 ^ nbits < 256 then [0x50#8, BitVec.ofNat 8 (w % 2 ^ nbits)] else tableBytes nbits w

end Sys2Proof
end

