-- ==== Sys2Proof/Machine/Operands.lean ====
section
/-! DEFINITION. The operand forms of the write byte (rules R29, R48 to R50): which bits a register takes from
it, and the registers its 3-bit address names. The stream commands' operands are assembled in Decode.lean. -/

namespace Sys2Proof.Machine

/-- The registers behind the 3-bit address (rule R29). -/
inductive PsgReg where
  /-- Addresses 0, 2, 4: the period `TP[i]`. -/
  | tone (i : Fin 3)
  /-- Addresses 1, 3, 5, 7: the attenuation `ATT[c]`. -/
  | volume (c : Fin 4)
  /-- Address 6: the noise control. -/
  | noiseControl
  deriving DecidableEq, Repr

/-- The address map of rule R29. -/
def psgReg (a : BitVec 3) : PsgReg :=
  match a.toNat with
  | 0 => .tone 0
  | 1 => .volume 0
  | 2 => .tone 1
  | 3 => .volume 1
  | 4 => .tone 2
  | 5 => .volume 2
  | 6 => .noiseControl
  | _ => .volume 3

/-- `TP[9:4] : d`, the period with its low 4 bits replaced (rules R49, R65). -/
def withLowBits (tp : BitVec 10) (d : BitVec 4) : BitVec 10 := tp.extractLsb' 4 6 ++ d

/-- `e : TP[3:0]`, the period with its high 6 bits replaced (rules R50, R73). -/
def withHighBits (tp : BitVec 10) (e : BitVec 6) : BitVec 10 := e ++ tp.extractLsb' 0 4

/-- The noise-control value of LN: `d[2:0]` (rule R71). -/
def lnControl (d : BitVec 4) : BitVec 3 := d.extractLsb' 0 3

/-- The period bits of a DATA byte: `v[5:0]` (rule R73). -/
def dataPeriodBits (e : BitVec 7) : BitVec 6 := e.extractLsb' 0 6

/-- The attenuation of a DATA byte: `v[3:0]` (rule R73). -/
def dataAttenuation (e : BitVec 7) : BitVec 4 := e.extractLsb' 0 4

/-- The noise-control value of a DATA byte: `v[2:0]` (rule R73). -/
def dataControl (e : BitVec 7) : BitVec 3 := e.extractLsb' 0 3

/-- The shift-rate selector of a noise-control value: `c[1:0]` (rule R74). -/
def controlSelector (c : BitVec 3) : BitVec 2 := c.extractLsb' 0 2

/-- The mode of a noise-control value: `c[2]` (rule R74). -/
def controlMode (c : BitVec 3) : NoiseMode := if c.getLsbD 2 then .white else .periodic

/-- The period of a shift-rate class: `32 << selector` (rule R74). -/
def classPeriod (sel : BitVec 2) : BitVec 9 := 32#9 <<< sel.toNat

/-- The tone channel `i`. -/
def PsgCore.tone (p : PsgCore) (i : Fin 3) : Tone :=
  match i with
  | 0 => p.tone0
  | 1 => p.tone1
  | 2 => p.tone2

/-- Replace the tone channel `i`. -/
def PsgCore.setTone (p : PsgCore) (i : Fin 3) (t : Tone) : PsgCore :=
  match i with
  | 0 => { p with tone0 := t }
  | 1 => { p with tone1 := t }
  | 2 => { p with tone2 := t }

/-- `ATT[c]`, channel 3 being noise (rule R15). -/
def PsgCore.att (p : PsgCore) (c : Fin 4) : BitVec 4 :=
  match c with
  | 0 => p.tone0.att
  | 1 => p.tone1.att
  | 2 => p.tone2.att
  | 3 => p.noise.att

/-- `ATT[c] <- d`. -/
def PsgCore.setAtt (p : PsgCore) (c : Fin 4) (d : BitVec 4) : PsgCore :=
  match c with
  | 0 => { p with tone0 := { p.tone0 with att := d } }
  | 1 => { p with tone1 := { p.tone1 with att := d } }
  | 2 => { p with tone2 := { p.tone2 with att := d } }
  | 3 => { p with noise := { p.noise with att := d } }

/-- `ACC[c]`, channel 3 being noise (rule R23). -/
def PsgCore.acc (p : PsgCore) (c : Fin 4) : BitVec 16 :=
  match c with
  | 0 => p.tone0.acc
  | 1 => p.tone1.acc
  | 2 => p.tone2.acc
  | 3 => p.noise.acc

end Sys2Proof.Machine
end

