-- ==== Sys2Proof/Machine/Tick.lean ====
section
/-! DEFINITION. The internal tick (rules R76 to R86): the volume table, the phase accumulator, the noise and
tone steps, the accumulators, and `AdvanceTick`. -/

namespace Sys2Proof.Machine

/-- Rule R76: the volume table, `VOL[att]`: an 8-bit value, given at the width of the accumulator it is added to. -/
def vol (att : BitVec 4) : BitVec 16 :=
  match att.toNat with
  | 0 => 255#16
  | 1 => 203#16
  | 2 => 161#16
  | 3 => 128#16
  | 4 => 101#16
  | 5 => 80#16
  | 6 => 64#16
  | 7 => 51#16
  | 8 => 40#16
  | 9 => 32#16
  | 10 => 25#16
  | 11 => 20#16
  | 12 => 16#16
  | 13 => 12#16
  | 14 => 10#16
  | _ => 0#16

/-- Rule R78: the sum `BPH + BINC`, a mathematical one. -/
def phaseSum (bph : BitVec 24) (binc : BitVec 32) : Nat := bph.toNat + binc.toNat

/-- Rule R78: `n`, the whole chip ticks to apply. -/
def phaseTicks (bph : BitVec 24) (binc : BitVec 32) : Nat := phaseSum bph binc / 2 ^ 24

/-- Rule R78: `BPH` afterwards, the fraction. -/
def phaseRest (bph : BitVec 24) (binc : BitVec 32) : BitVec 24 := BitVec.ofNat 24 (phaseSum bph binc)

/-- Rule R79: the shift, to the right with the feedback bit entering at bit 15. -/
def shiftSeed (mode : NoiseMode) (fb seed : BitVec 16) : BitVec 16 :=
  (seed >>> 1) ||| ((BitVec.ofBool (feedbackBit mode fb seed)).setWidth 16 <<< 15)

/-- Rule R79: what is subtracted from `NC` at a crossing: `TP[2]` as it is, or `NP` clamped to at least 1. -/
def noiseSubtrahend (tp2 : BitVec 10) (z : Noise) : BitVec 9 :=
  if z.nref then tp2.setWidth 9 else if z.np = 0#9 then 1#9 else z.np

/-- Rule R79: `NoiseStep(n)`. -/
def noiseStep (fb : BitVec 16) (tp2 : BitVec 10) (n : Nat) (z : Noise) : Noise :=
  let nc := z.nc + BitVec.ofNat 9 n
  if noiseCrossed nc then { z with nc := nc - noiseSubtrahend tp2 z, seed := shiftSeed z.nmode fb z.seed }
  else { z with nc := nc }

/-- Rules R81, R83: one accumulator update: add the level if the channel is on, then halve. -/
def smooth (on : Bool) (att : BitVec 4) (acc : BitVec 16) : BitVec 16 :=
  (if on then acc + vol att else acc) >>> 1

/-- Rule R81: `NoiseAcc()`. -/
def noiseAcc (z : Noise) : Noise := { z with acc := smooth (z.seed.getLsbD 0) z.att z.acc }

/-- Rule R82: `ToneStep(i, n)`. -/
def toneStep (n : Nat) (t : Tone) : Tone :=
  let tc := t.tc + BitVec.ofNat 11 n
  if toneCrossed tc then
    { t with tc := if toneToggles t.tp then tc - t.tp.setWidth 11 else tc, edge := edgeAfterCrossing t.tp t.edge }
  else { t with tc := tc }

/-- Rule R83: `ToneAcc(i)`. -/
def toneAcc (t : Tone) : Tone := { t with acc := smooth (t.edge && !t.mute) t.att t.acc }

/-- Rule R77: the noise channel's part of `AdvanceTick`. -/
def tickNoise (fb : BitVec 16) (tp2 : BitVec 10) (n : Nat) (z : Noise) : Noise := noiseAcc (noiseStep fb tp2 n z)

/-- Rule R77: a tone channel's part of `AdvanceTick`. -/
def tickTone (n : Nat) (t : Tone) : Tone := toneAcc (toneStep n t)

/-- Rule R77: `AdvanceTick()`. -/
def advanceTick (fb : BitVec 16) (binc : BitVec 32) (p : PsgCore) : PsgCore :=
  let n := phaseTicks p.bph binc
  { p with
    bph := phaseRest p.bph binc
    noise := tickNoise fb p.tone2.tp n p.noise
    tone0 := tickTone n p.tone0
    tone1 := tickTone n p.tone1
    tone2 := tickTone n p.tone2 }

end Sys2Proof.Machine
end

