-- ==== Sys2Proof/Machine/Mixer.lean ====
section
/-! DEFINITION. The mixers (rules R87, R88, R95). -/

namespace Sys2Proof.Machine

/-- Rule R87: the mathematical sum of the four accumulators. -/
def accSum (p : PsgCore) : Nat := p.tone0.acc.toNat + p.tone1.acc.toNat + p.tone2.acc.toNat + p.noise.acc.toNat

/-- Rule R87: `MixMono()`, `sext_16(t mod 2^16)`. -/
def mixMono (p : PsgCore) : Int := (BitVec.ofNat 16 (accSum p)).toInt

/-- What a channel adds to an ear: its accumulator if its bit of the mask is set (rule R88). -/
def enabledAcc (p : PsgCore) (bit : Nat) (c : Fin 4) : Nat := if p.stereo.getLsbD bit then (p.acc c).toNat else 0

/-- Rule R88: the sum of the channels the high nibble of `STEREO` enables. -/
def leftSum (p : PsgCore) : Nat := enabledAcc p 4 0 + enabledAcc p 5 1 + enabledAcc p 6 2 + enabledAcc p 7 3

/-- Rule R88: the sum of the channels the low nibble of `STEREO` enables. -/
def rightSum (p : PsgCore) : Nat := enabledAcc p 0 0 + enabledAcc p 1 1 + enabledAcc p 2 2 + enabledAcc p 3 3

/-- Rule R95: `Mix()`; `MixStereo()` (rule R88) is the pair `sext_32` of the two totals, left first. -/
def mix (mode : OutMode) (p : PsgCore) : Item :=
  match mode with
  | .mono => .mono (mixMono p)
  | .stereo => .stereo (BitVec.ofNat 32 (leftSum p)).toInt (BitVec.ofNat 32 (rightSum p)).toInt

end Sys2Proof.Machine
end

