-- ==== Sys2Proof/Machine/Ops.lean ====
section
/-! DEFINITION. The shared operations of the command-stream decoder: retiring a command, the sample primitive,
generating samples, the writes of the PSG registers, and entering the fault state. -/

namespace Sys2Proof.Machine

/-! Retiring, and entering the fault state. -/

/-- Rule R54: a command of length `L` retires by `pc <- CUR + L`. -/
def retire (len : Nat) (s : State) : State := { s with csd := { s.csd with cur := s.csd.cur + BitVec.ofNat 32 len } }

/-- Rules R96, R101: taking an exception, the ONE operation: record the code, the byte and the cursor, and stop.
There is no handler and no return (rule R102): nothing restores what this writes, and only a new `construct`
starts again. -/
def raiseFault (code : BitVec 2) (byte : Byte) (s : State) : State :=
  { s with csd := { s.csd with fcode := code, fbyte := byte, faddr := s.csd.cur, status := .fault } }

/-- Rule R97: `raise UnsupportedOpcode(op)`. -/
def raiseUnsupportedOpcode (op : Byte) (s : State) : State := raiseFault 1#2 op s

/-- Rule R98: `raise TruncatedStream()`. -/
def raiseTruncatedStream (s : State) : State := raiseFault 2#2 0x00#8 s

/-- The fault a refusal of the decoder is. -/
def raiseDecodeError (e : DecodeError) (s : State) : State :=
  match e with
  | .truncatedStream => raiseTruncatedStream s
  | .unsupportedOpcode op => raiseUnsupportedOpcode op s

/-! The writes of the PSG registers. -/

/-- `LATCH <- a` (rule R64). -/
def setLatch (a : BitVec 3) (p : PsgCore) : PsgCore := { p with latch := a }

/-- `TP[i] <- TP[i][9:4] : d` (rules R65 to R67). -/
def writeToneLow (i : Fin 3) (d : BitVec 4) (p : PsgCore) : PsgCore :=
  p.setTone i { p.tone i with tp := withLowBits (p.tone i).tp d }

/-- `TP[i] <- e : TP[i][3:0]` (rule R73). -/
def writeToneHigh (i : Fin 3) (e : BitVec 6) (p : PsgCore) : PsgCore :=
  p.setTone i { p.tone i with tp := withHighBits (p.tone i).tp e }

/-- `ATT[c] <- d` (rules R68 to R70, R72, R73). -/
def writeVolume (c : Fin 4) (d : BitVec 4) (p : PsgCore) : PsgCore := p.setAtt c d

/-- Rule R74: `NoiseCtl(c)` on the noise channel. -/
def Noise.control (c : BitVec 3) (z : Noise) : Noise :=
  if controlSelector c = 3#2 then { z with nmode := controlMode c, nref := true, seed := 0x8000#16 }
  else
    { z with nmode := controlMode c, nref := false, np := classPeriod (controlSelector c), seed := 0x8000#16 }

/-- Rule R74: `NoiseCtl(c)`. -/
def noiseCtl (c : BitVec 3) (p : PsgCore) : PsgCore := { p with noise := p.noise.control c }

/-! The sample primitive. -/

/-- Rule R90: the loop of the accurate path on `CTIME` and the PSG core, at most `fuel` times round. -/
def accurateLoop (fb : BitVec 16) (x : RateRegs) (fuel : Nat) (ctime : BitVec 32) (p : PsgCore) : BitVec 32 × PsgCore :=
  match fuel with
  | 0 => (ctime, p)
  | fuel + 1 =>
    if ctime.toNat < x.rstep.toNat then
      evaluated (ctime + x.cstep) fun c => (advanceTick fb x.binc p).evaluated fun p' => accurateLoop fb x fuel c p'
    else (ctime, p)

/-- Rule R90: `AccurateTicks()`. `RSTEP` rounds are enough whenever `CSTEP` is not 0 (rule R94, log entry 9). -/
def accurateTicks (fb : BitVec 16) (x : RateRegs) (p : PsgCore) : BitVec 32 × PsgCore :=
  let r := accurateLoop fb x x.rstep.toNat x.ctime p
  (r.1 - x.rstep, r.2)

/-- Rule R89: what `Sample()` does to the state: one `AdvanceTick` on the fast path, the loop on the accurate path. -/
def sampleTicks (s : State) : State :=
  if s.cfg.q = 0#8 then { s with psg := advanceTick s.cfg.fb s.src.binc s.psg }
  else
    { s with
      src := { s.src with ctime := (accurateTicks s.cfg.fb s.src s.psg).1 }
      psg := (accurateTicks s.cfg.fb s.src s.psg).2 }

/-- Rule R40: `Emit(s)`. -/
def emit (x : Item) (s : State) : State := { s with outRev := x :: s.outRev }

/-- One round of `GenSamples`: `s <- Sample(); Emit(s)` (rules R61, R89), one core operation of the host's count. -/
def sampleAndEmit (s : State) : State :=
  emit (mix s.cfg.outMode (sampleTicks s).psg) { sampleTicks s with host := afterCoreOp s.host }

/-- Rule R61: `GenSamples(n)`, the host acting where it may (rule R106); none where the host asks for a rate the
spec refuses. -/
def genSamples (n : Nat) (s : State) : Option State :=
  match n with
  | 0 => some s
  | n + 1 =>
    match hostTurn s with
    | some s' => (sampleAndEmit s').evaluated (genSamples n)
    | none => none

/-! The two shapes of a command. -/

/-- A WR command whose write byte does `f` to the PSG core (rule R55): one core operation, two bytes. -/
def writeCommand (f : PsgCore → PsgCore) (s : State) : State :=
  retire 2 { s with psg := f s.psg, host := afterCoreOp s.host }

/-- A wait command of `n` samples in `len` bytes (rules R56 to R58). -/
def waitCommand (n len : Nat) (s : State) : Host.Outcome State Fault Refusal :=
  match genSamples n s with
  | some s' => .next (retire len s')
  | none => .refused .rateRefused

end Sys2Proof.Machine
end

