-- ==== Sys2Proof/Machine/PsgWrites.lean ====
section
/-! DEFINITION. The write-byte family (rules R64 to R75): what each form does to the PSG core, `Write(v)`, and
the instruction meanings. A form runs as the operand of a WR command, which retires past its two bytes (log entry 3). -/

namespace Sys2Proof.Machine

/-- Rule R65: LT0, with the latch of rule R64. -/
def lt0 (d : BitVec 4) (p : PsgCore) : PsgCore := writeToneLow 0 d (setLatch 0#3 p)

/-- Rule R68: LV0. -/
def lv0 (d : BitVec 4) (p : PsgCore) : PsgCore := writeVolume 0 d (setLatch 1#3 p)

/-- Rule R66: LT1. -/
def lt1 (d : BitVec 4) (p : PsgCore) : PsgCore := writeToneLow 1 d (setLatch 2#3 p)

/-- Rule R69: LV1. -/
def lv1 (d : BitVec 4) (p : PsgCore) : PsgCore := writeVolume 1 d (setLatch 3#3 p)

/-- Rule R67: LT2. -/
def lt2 (d : BitVec 4) (p : PsgCore) : PsgCore := writeToneLow 2 d (setLatch 4#3 p)

/-- Rule R70: LV2. -/
def lv2 (d : BitVec 4) (p : PsgCore) : PsgCore := writeVolume 2 d (setLatch 5#3 p)

/-- Rule R71: LN. -/
def ln (d : BitVec 4) (p : PsgCore) : PsgCore := noiseCtl (lnControl d) (setLatch 6#3 p)

/-- Rule R72: LV3. -/
def lv3 (d : BitVec 4) (p : PsgCore) : PsgCore := writeVolume 3 d (setLatch 7#3 p)

/-- Rule R73: DATA, by the latched register; `LATCH` is unchanged. -/
def data (e : BitVec 7) (p : PsgCore) : PsgCore :=
  match psgReg p.latch with
  | .tone i => writeToneHigh i (dataPeriodBits e) p
  | .volume c => writeVolume c (dataAttenuation e) p
  | .noiseControl => noiseCtl (dataControl e) p

/-- Rule R64: `Write(v)`. -/
def psgWrite (v : Byte) (p : PsgCore) : PsgCore :=
  if v.getLsbD 7 then
    match (plAddr v).toNat with
    | 0 => lt0 (plData v) p
    | 1 => lv0 (plData v) p
    | 2 => lt1 (plData v) p
    | 3 => lv1 (plData v) p
    | 4 => lt2 (plData v) p
    | 5 => lv2 (plData v) p
    | 6 => ln (plData v) p
    | _ => lv3 (plData v) p
  else data (v.extractLsb' 0 7) p

/-- LT0 as an instruction: `WR LT0 d`. -/
def execLt0 (d : BitVec 4) (s : State) : Host.Outcome State Fault Refusal := .next (writeCommand (lt0 d) s)

/-- LV0 as an instruction: `WR LV0 d`. -/
def execLv0 (d : BitVec 4) (s : State) : Host.Outcome State Fault Refusal := .next (writeCommand (lv0 d) s)

/-- LT1 as an instruction: `WR LT1 d`. -/
def execLt1 (d : BitVec 4) (s : State) : Host.Outcome State Fault Refusal := .next (writeCommand (lt1 d) s)

/-- LV1 as an instruction: `WR LV1 d`. -/
def execLv1 (d : BitVec 4) (s : State) : Host.Outcome State Fault Refusal := .next (writeCommand (lv1 d) s)

/-- LT2 as an instruction: `WR LT2 d`. -/
def execLt2 (d : BitVec 4) (s : State) : Host.Outcome State Fault Refusal := .next (writeCommand (lt2 d) s)

/-- LV2 as an instruction: `WR LV2 d`. -/
def execLv2 (d : BitVec 4) (s : State) : Host.Outcome State Fault Refusal := .next (writeCommand (lv2 d) s)

/-- LN as an instruction: `WR LN d`. -/
def execLn (d : BitVec 4) (s : State) : Host.Outcome State Fault Refusal := .next (writeCommand (ln d) s)

/-- LV3 as an instruction: `WR LV3 d`. -/
def execLv3 (d : BitVec 4) (s : State) : Host.Outcome State Fault Refusal := .next (writeCommand (lv3 d) s)

/-- DATA as an instruction: `WR DATA e`. -/
def execData (e : BitVec 7) (s : State) : Host.Outcome State Fault Refusal := .next (writeCommand (data e) s)

end Sys2Proof.Machine
end

