-- ==== Sys2Proof/Machine/StreamCommands.lean ====
section
/-! DEFINITION. The stream-command family (rules R55 to R59). Each meaning is entered with its operand bytes
already fetched (rule R99 puts that check before every effect). -/

namespace Sys2Proof.Machine

/-- Rule R55: WR. -/
def execWr (dd : Byte) (s : State) : Host.Outcome State Fault Refusal := .next (writeCommand (psgWrite dd) s)

/-- Rule R56: WAIT. -/
def execWait (n : Nat) (s : State) : Host.Outcome State Fault Refusal := waitCommand n 3 s

/-- Rule R57: WAIT735. -/
def execWait735 (s : State) : Host.Outcome State Fault Refusal := waitCommand 735 1 s

/-- Rule R58: WAITS. -/
def execWaits (n : Nat) (s : State) : Host.Outcome State Fault Refusal := waitCommand n 1 s

/-- `halt`: `STATUS <- HALT` (rules R8, R59). -/
def haltRun (s : State) : State := { s with csd := { s.csd with status := .halt } }

/-- Rule R59: END. -/
def execEnd (s : State) : Host.Outcome State Fault Refusal := .next (haltRun (retire 1 s))

end Sys2Proof.Machine
end

