-- ==== Sys2Proof/Machine/Dispatch.lean ====
section
/-! DEFINITION. One arm per instruction. -/

namespace Sys2Proof.Machine

/-- The meaning of an instruction. -/
def exec (i : Instr) (s : State) : Host.Outcome State Fault Refusal :=
  match i with
  -- stream commands
  | .wr dd => Sys2Proof.Machine.execWr dd s
  | .wait n => Sys2Proof.Machine.execWait n s
  | .wait735 => Sys2Proof.Machine.execWait735 s
  | .endOfStream => Sys2Proof.Machine.execEnd s
  | .waits n => Sys2Proof.Machine.execWaits n s
  -- write-byte forms
  | .lt0 d => Sys2Proof.Machine.execLt0 d s
  | .lv0 d => Sys2Proof.Machine.execLv0 d s
  | .lt1 d => Sys2Proof.Machine.execLt1 d s
  | .lv1 d => Sys2Proof.Machine.execLv1 d s
  | .lt2 d => Sys2Proof.Machine.execLt2 d s
  | .lv2 d => Sys2Proof.Machine.execLv2 d s
  | .ln d => Sys2Proof.Machine.execLn d s
  | .lv3 d => Sys2Proof.Machine.execLv3 d s
  | .data e => Sys2Proof.Machine.execData e s

end Sys2Proof.Machine
end

