-- ==== Sys2Proof/Machine/Step.lean ====
section
/-! DEFINITION. One step of the command-stream decoder (rule R54). -/

namespace Sys2Proof.Machine

/-- What the decoder reads at the cursor. -/
def State.fetch (s : State) : Except DecodeError (Instr × List Byte) := decode s.fetchBytes

/-- Rule R54, the host having acted: fetch, then execute or raise. -/
def stepCommand (s : State) : Host.Outcome State Fault Refusal :=
  match s.fetch with
  | .ok (i, _) => exec i s
  | .error e => .next (raiseDecodeError e s)

/-- One step: enabled only while `STATUS = RUN` (rules R54, R102), given a meaning only under `ConfigLegal` (rule
R6; log entry 8), and begun between two commands, where the host may act (rule R106; log entry 7). -/
def step (s : State) : Host.Outcome State Fault Refusal :=
  match s.csd.status with
  | .halt => .fault .runHalted
  | .fault => .fault .runFaulted
  | .run =>
    if s.configLegal then
      match hostTurn s with
      | some s' => stepCommand s'
      | none => .refused .rateRefused
    else .refused .configurationRefused

/-- Place an opcode-table word where the next step fetches: at the cursor of a running machine, the stream made
long enough to hold it. A cursor too near the top of the 32-bit index space for the longest command is moved to
0, and a stopped machine is set running, since the fetch needs both (log entry 5). -/
def State.withFetchWord (s : State) (nbits w : Nat) : State :=
  let cur := if s.csd.cur.toNat + maxCommandLength < 2 ^ 32 then s.csd.cur else 0#32
  let bytes := tableLayout nbits w
  { s with
    csd := { s.csd with cur := cur, status := .run }
    stream :=
      { mem := Memory.place s.stream.mem cur.toNat bytes, len := max s.stream.len (cur.toNat + bytes.length) } }

end Sys2Proof.Machine
end

