-- ==== Sys2Proof/Safety.lean ====
section
/-! DEFINITION. What the statements speak of: the outcome of a step, how a run ends (rules R102, R115), and the
invariants of rule R31. -/

namespace Sys2Proof.Machine

/-- The next state of an outcome, if it is one. -/
def nextState (o : Host.Outcome State Fault Refusal) : Option State :=
  match o with
  | .next s => some s
  | .fault _ => none
  | .refused _ => none

/-- Whether a host operation keeps `ConfigLegal` (rules R91, R106). -/
def HostOp.legal (cfg : ConfigRegs) (len : Nat) (op : HostOp) : Bool :=
  match op with
  | .reset => true
  | .setRate r => configLegal cfg r len

/-- Every pending host call is one the host may make. -/
def State.hostLegal (s : State) : Bool := s.host.all (fun c => c.op.legal s.cfg s.stream.len)

/-- A state in which the decoder has a step: running, in a legal configuration, the host behaving. -/
def State.ready (s : State) : Bool := decide (s.csd.status = .run) && s.configLegal && s.hostLegal

/-- The run is over, well (`HALT`) or badly (`FAULT`): rule R115. -/
def State.ended (s : State) : Bool := decide (s.csd.status ≠ .run)

/-- Rule R31: no accumulator is above 254. -/
def PsgCore.accBounded (p : PsgCore) : Prop := ∀ c : Fin 4, (p.acc c).toNat ≤ 254

/-- Rules R19, R31: `NP` is one of 0, 32, 64, 128. -/
def PsgCore.noisePeriodLegal (p : PsgCore) : Prop :=
  p.noise.np = 0#9 ∨ p.noise.np = 32#9 ∨ p.noise.np = 64#9 ∨ p.noise.np = 128#9

/-- Rule R31: the seed is never 0, provided bit 0 of the tap mask is set. -/
def State.seedAlive (s : State) : Prop := s.cfg.fb.getLsbD 0 = true → s.psg.noise.seed ≠ 0#16

/-- Rules R16, R22: nothing mutes a channel or changes the panning mask. -/
def PsgCore.panFixed (p : PsgCore) : Prop :=
  p.tone0.mute = false ∧ p.tone1.mute = false ∧ p.tone2.mute = false ∧ p.stereo = 0xFF#8

/-- Rules R26, R31: the cursor has not passed the end of the stream. -/
def State.cursorInStream (s : State) : Prop := s.csd.cur.toNat ≤ s.stream.len

/-- Rules R11, R91 to R93: the rate is not 0 and the step constants are those of the formulas. -/
def State.stepConstants (s : State) : Prop :=
  s.src.rate ≠ 0#32 ∧ s.src.binc = bincOf s.cfg.clk s.src.rate s.cfg.q ∧
    s.src.rstep = rstepOf s.src.rate s.cfg.q ∧ s.src.cstep = cstepOf s.cfg.clk s.cfg.q

/-- Rules R25, R31, R94: chip time is less than one chip tick ahead between two samples, and 0 on the fast path. -/
def State.chipTimeBounded (s : State) : Prop :=
  if s.cfg.q = 0#8 then s.src.ctime = 0#32 else 32 ≤ s.src.cstep.toNat ∧ s.src.ctime.toNat < s.src.cstep.toNat

/-- Rule R98: the three situations in which the stream is truncated at the cursor: (a) no opcode byte, (b) a WR
without its operand, (c) a WAIT without both operand bytes. -/
def State.truncatedHere (s : State) : Prop :=
  s.stream.len ≤ s.csd.cur.toNat ∨
    (s.csd.cur.toNat < s.stream.len ∧ s.stream.read s.csd.cur.toNat = 0x50#8 ∧ s.stream.len < s.csd.cur.toNat + 2) ∨
    (s.csd.cur.toNat < s.stream.len ∧ s.stream.read s.csd.cur.toNat = 0x61#8 ∧ s.stream.len < s.csd.cur.toNat + 3)

/-- Rule R46: the 20 recognised values of byte 0. -/
def recognised (op : Byte) : Prop :=
  op.toNat = 0x50 ∨ op.toNat = 0x61 ∨ op.toNat = 0x62 ∨ op.toNat = 0x66 ∨ (0x70 ≤ op.toNat ∧ op.toNat ≤ 0x7F)

/-- Rules R60, R97: the byte at the cursor is an opcode byte of none of the five kinds. -/
def State.unsupportedHere (s : State) : Prop :=
  s.csd.cur.toNat < s.stream.len ∧ ¬ recognised (s.stream.read s.csd.cur.toNat)

/-- The frame of a WR command (rule R55): the PSG core apart, only `CUR` moves, by 2, and the host's next call comes
one core operation nearer. `STREAM` and `OUT` are as before. -/
def wroteOnlyPsg (s t : State) : Prop :=
  t.cfg = s.cfg ∧ t.src = s.src ∧ t.outRev = s.outRev ∧ t.stream.len = s.stream.len ∧
    (∀ a, t.stream.read a = s.stream.read a) ∧ t.csd = { s.csd with cur := s.csd.cur + 2#32 } ∧
    t.host = afterCoreOp s.host

/-- The effect of a noise-control value `c` (rule R74) on the noise channel, and its frame: `NC`, `ATT[3]` and
`ACC[3]` are as before. -/
def noiseControlled (c : Nat) (z z' : Noise) : Prop :=
  z'.nmode = (if c / 4 % 2 = 1 then .white else .periodic) ∧
    (c % 4 = 3 → z'.nref = true ∧ z'.np = z.np) ∧
    (c % 4 ≠ 3 → z'.nref = false ∧ z'.np.toNat = 32 * 2 ^ (c % 4)) ∧
    z'.seed = 0x8000#16 ∧ z'.nc = z.nc ∧ z'.att = z.att ∧ z'.acc = z.acc

/-- What every wait command of `n` samples in `len` bytes does, the host acting or not (rule R61): `OUT` grows by
exactly `n` items at its end, `CUR` moves past the command, the rest of the decoder's registers, the
configuration and the stream are as before. -/
def waited (n len : Nat) (s t : State) : Prop :=
  (∃ items, t.out = s.out ++ items ∧ items.length = n) ∧
    t.csd = { s.csd with cur := s.csd.cur + BitVec.ofNat 32 len } ∧ t.cfg = s.cfg ∧ t.stream = s.stream

/-- The registers of a tone channel that only a write, the host or nobody changes. -/
def sameToneSettings (t u : Tone) : Prop := u.tp = t.tp ∧ u.att = t.att ∧ u.mute = t.mute

/-- The registers of the PSG core that only a write, the host or nobody changes. -/
def samePsgSettings (p q : PsgCore) : Prop :=
  sameToneSettings p.tone0 q.tone0 ∧ sameToneSettings p.tone1 q.tone1 ∧ sameToneSettings p.tone2 q.tone2 ∧
    q.noise.np = p.noise.np ∧ q.noise.nmode = p.noise.nmode ∧ q.noise.nref = p.noise.nref ∧
    q.noise.att = p.noise.att ∧ q.latch = p.latch ∧ q.stereo = p.stereo

/-- The step constants are as before; `CTIME` may differ. -/
def sameStepConstants (x y : RateRegs) : Prop :=
  y.rate = x.rate ∧ y.binc = x.binc ∧ y.rstep = x.rstep ∧ y.cstep = x.cstep

/-- Rule R87: the level of silence, in the format of the output mode. -/
def silence (mode : OutMode) : Item :=
  match mode with
  | .mono => .mono 0
  | .stereo => .stereo 0 0

/-- `VOL[att]` as the list of rule R76. -/
def volList : List Nat := [255, 203, 161, 128, 101, 80, 64, 51, 40, 32, 25, 20, 16, 12, 10, 0]

/-- The invariants of rule R31 and of the canonical form of the stream, together. -/
structure State.Inv (s : State) : Prop where
  legal : s.configLegal = true
  streamWf : s.stream.wf = true
  accBounded : s.psg.accBounded
  noisePeriodLegal : s.psg.noisePeriodLegal
  seedAlive : s.seedAlive
  panFixed : s.psg.panFixed
  cursorInStream : s.cursorInStream
  stepConstants : s.stepConstants
  chipTimeBounded : s.chipTimeBounded

end Sys2Proof.Machine
end

