-- ==== Sys2Proof/Certificates/Slice0/Obligations.lean ====
section
/-! DEFINITION. The statements for the provers, from the numbered rules of spec/. Stated, never proved here. -/

open Sys2Proof Sys2Proof.Machine

/-! ## Encoding -/

/-- Every well-formed stream command decodes from its own bytes, whatever follows them. -/
def Obligations.StreamCommandsDecodeAsEncoded : Prop :=
  ∀ (i : Instr) (rest : List Byte), i.level = .stream → i.wellFormed = true →
    decode (encode i ++ rest) = .ok (i, rest)

/-- Every write-byte form decodes from its own byte, and every byte is the encoding of the form it decodes to. -/
def Obligations.WriteBytesDecodeAsEncoded : Prop :=
  (∀ i : Instr, i.level = .writeByte → ∃ v, encode i = [v] ∧ decodeWrite v = i) ∧
    ∀ v : Byte, (decodeWrite v).level = .writeByte ∧ encode (decodeWrite v) = [v]

/-- What the stream decoder accepts is a well-formed stream command, and the bytes it took are its encoding. -/
def Obligations.DecodedBytesAreTheEncoding : Prop :=
  ∀ (bs : List Byte) (i : Instr) (rest : List Byte), decode bs = .ok (i, rest) →
    i.level = .stream ∧ i.wellFormed = true ∧ bs = encode i ++ rest

/-- Rule R46: the opcode map over all 256 values of byte 0, with the operands of rule R47. -/
def Obligations.OpcodeMapOfByteZero : Prop :=
  ∀ (op : Byte) (rest : List Byte),
    (op.toNat = 0x50 → ∀ dd, decode (op :: dd :: rest) = .ok (.wr dd, rest)) ∧
    (op.toNat = 0x61 → ∀ lo hi, decode (op :: lo :: hi :: rest) = .ok (.wait (lo.toNat + 256 * hi.toNat), rest)) ∧
    (op.toNat = 0x62 → decode (op :: rest) = .ok (.wait735, rest)) ∧
    (op.toNat = 0x66 → decode (op :: rest) = .ok (.endOfStream, rest)) ∧
    (0x70 ≤ op.toNat → op.toNat ≤ 0x7F → decode (op :: rest) = .ok (.waits (op.toNat - 0x70 + 1), rest)) ∧
    (¬ recognised op → decode (op :: rest) = .error (.unsupportedOpcode op))

/-- Rule R45: how many bytes a command takes is a function of byte 0 alone, and a byte 0 with no length is refused
whatever follows it. -/
def Obligations.LengthFromByteZero : Prop :=
  ∀ (op : Byte) (bs : List Byte),
    (∀ i rest, decode (op :: bs) = .ok (i, rest) →
      bs.length + 1 = rest.length + (if op.toNat = 0x50 then 2 else if op.toNat = 0x61 then 3 else 1) ∧
      recognised op) ∧
    (¬ recognised op → decode (op :: bs) = .error (.unsupportedOpcode op)) ∧
    (recognised op → 2 ≤ bs.length → ∃ i rest, decode (op :: bs) = .ok (i, rest))

/-- Rule R51: the write-byte map over all 256 values. -/
def Obligations.WriteByteMapOfAllValues : Prop :=
  ∀ v : Byte,
    (v.toNat < 0x80 → decodeWrite v = .data (BitVec.ofNat 7 v.toNat)) ∧
    (0x80 ≤ v.toNat → v.toNat < 0x90 → decodeWrite v = .lt0 (BitVec.ofNat 4 (v.toNat - 0x80))) ∧
    (0x90 ≤ v.toNat → v.toNat < 0xA0 → decodeWrite v = .lv0 (BitVec.ofNat 4 (v.toNat - 0x90))) ∧
    (0xA0 ≤ v.toNat → v.toNat < 0xB0 → decodeWrite v = .lt1 (BitVec.ofNat 4 (v.toNat - 0xA0))) ∧
    (0xB0 ≤ v.toNat → v.toNat < 0xC0 → decodeWrite v = .lv1 (BitVec.ofNat 4 (v.toNat - 0xB0))) ∧
    (0xC0 ≤ v.toNat → v.toNat < 0xD0 → decodeWrite v = .lt2 (BitVec.ofNat 4 (v.toNat - 0xC0))) ∧
    (0xD0 ≤ v.toNat → v.toNat < 0xE0 → decodeWrite v = .lv2 (BitVec.ofNat 4 (v.toNat - 0xD0))) ∧
    (0xE0 ≤ v.toNat → v.toNat < 0xF0 → decodeWrite v = .ln (BitVec.ofNat 4 (v.toNat - 0xE0))) ∧
    (0xF0 ≤ v.toNat → decodeWrite v = .lv3 (BitVec.ofNat 4 (v.toNat - 0xF0)))

/-- A few words written out from the spec's encodings (rules R47, R53, R65 to R73) decode to what they stand for. -/
def Obligations.SpecWordsDecode : Prop :=
  decode [0b01010000#8, 0b10011111#8] = .ok (.wr 0x9F#8, []) ∧
    decode [0b01100001#8, 0b11011111#8, 0b00000010#8] = .ok (.wait 735, []) ∧
    decode [0b01100010#8, 0b01100110#8] = .ok (.wait735, [0x66#8]) ∧
    decode [0b01110000#8] = .ok (.waits 1, []) ∧ decode [0b01111111#8] = .ok (.waits 16, []) ∧
    decode [0b01100110#8] = .ok (.endOfStream, []) ∧
    decodeWrite 0b10001100#8 = .lt0 12#4 ∧ decodeWrite 0b10110000#8 = .lv1 0#4 ∧
    decodeWrite 0b11100101#8 = .ln 5#4 ∧ decodeWrite 0b00001111#8 = .data 15#7

/-! ## The step and the faults -/

/-- The decoder sees exactly the stream's bytes from the cursor on, as far as the longest command and `LEN`. That it
looks at a window of up to three bytes at all is the model's choice, log entry 11: rule R45 has byte 0 alone decide the
length, and rule R34 no byte after END read. -/
def Obligations.FetchSeesTheStream : Prop :=
  ∀ s : State, s.fetchBytes.length = min 3 (s.stream.len - s.csd.cur.toNat) ∧
    ∀ k, k < 3 → s.csd.cur.toNat + k < s.stream.len →
      s.fetchBytes[k]? = some (s.stream.read (s.csd.cur.toNat + k))

/-- Rules R35, R47: the operands of the command at the cursor, read from the stream: `dd` as it is, the WAIT count
little-endian, the WAITS count from the opcode byte. -/
def Obligations.OperandsComeFromTheStream : Prop :=
  ∀ s : State,
    let c := s.csd.cur.toNat
    let op := (s.stream.read c).toNat
    (op = 0x50 → c + 2 ≤ s.stream.len → ∃ rest, s.fetch = .ok (.wr (s.stream.read (c + 1)), rest)) ∧
    (op = 0x61 → c + 3 ≤ s.stream.len → ∃ rest, s.fetch =
      .ok (.wait ((s.stream.read (c + 1)).toNat + 256 * (s.stream.read (c + 2)).toNat), rest)) ∧
    (op / 16 = 7 → c < s.stream.len → ∃ rest, s.fetch = .ok (.waits (op % 16 + 1), rest)) ∧
    (op = 0x62 → c < s.stream.len → ∃ rest, s.fetch = .ok (.wait735, rest)) ∧
    (op = 0x66 → c < s.stream.len → ∃ rest, s.fetch = .ok (.endOfStream, rest))

/-- A step of a running, legal machine is the execution of the command decoded at the cursor, on the state the
host's due calls leave; with no call pending that is the state itself. That a host may call between two core operations
is the spec's decisions D1 and D30; that the due calls act at the start of the step, before the fetch, is the model's
choice, log entry 7 (and 6 for their list). -/
def Obligations.StepRunsTheDecodedCommand : Prop :=
  (∀ (s s' : State) (i : Instr) (rest : List Byte), s.csd.status = .run → s.configLegal = true →
      hostTurn s = some s' → decode s'.fetchBytes = .ok (i, rest) → step s = exec i s') ∧
    ∀ s : State, s.host = [] → hostTurn s = some s

/-- Rules R60, R97: an unrecognised opcode byte enters the fault state with code 1, that byte and its index, and
nothing else changes. The code, the index and where `CUR` stands are the spec's decisions D19 and D17; that the host's
due calls act first is log entry 7. -/
def Obligations.UnsupportedOpcodeEntersFault : Prop :=
  ∀ s s' : State, s.csd.status = .run → s.configLegal = true → hostTurn s = some s' → s'.unsupportedHere →
    step s = .next { s' with csd := { cur := s'.csd.cur, status := .fault, fcode := 1#2,
                                      fbyte := s'.stream.read s'.csd.cur.toNat, faddr := s'.csd.cur } }

/-- Rules R98, R100: a truncated stream enters the fault state with code 2, byte 0 and the index of the opcode, and
nothing else changes: the truncated command has no effect. The record, and that a stream cut inside a command is
truncated, are the spec's decisions D19 and D18; that the host's due calls act first is log entry 7. -/
def Obligations.TruncatedStreamEntersFault : Prop :=
  ∀ s s' : State, s.csd.status = .run → s.configLegal = true → hostTurn s = some s' → s'.truncatedHere →
    step s = .next { s' with csd := { cur := s'.csd.cur, status := .fault, fcode := 2#2, fbyte := 0#8,
                                      faddr := s'.csd.cur } }

/-- Rules R96 to R99: the two faults are raised in exactly the situations the rules name. Their order and the cut
inside a command are the spec's decisions D20 and D18, the codes D19; that the host's due calls act first is log entry
7. -/
def Obligations.FaultsAreRaisedExactlyThere : Prop :=
  ∀ s s' t : State, s.csd.status = .run → s.configLegal = true → hostTurn s = some s' → step s = .next t →
    ((t.csd.status = .fault ∧ t.csd.fcode = 2#2) ↔ s'.truncatedHere) ∧
    ((t.csd.status = .fault ∧ t.csd.fcode = 1#2) ↔ s'.unsupportedHere) ∧
    (t.csd.status = .fault → t.csd.fcode = 1#2 ∨ t.csd.fcode = 2#2)

/-- Rule R102: once `STATUS` is `HALT` or `FAULT` there is no step (with the spec's decision D21); the named
answers in its place are log entry 10. -/
def Obligations.StoppedMachineHasNoStep : Prop :=
  ∀ s : State, (s.csd.status = .halt → step s = .fault .runHalted) ∧
    (s.csd.status = .fault → step s = .fault .runFaulted)

/-- Rule R6: what `ConfigLegal` is, and that neither a step nor `Construct` gives an illegal configuration a meaning.
All its conjuncts but the first are the spec's decisions D3, D4, D13, D14 and D24; that an absent chip is refused
(rules R6, R109) is its decision D22. That a step makes the check too, on the registers it starts from, and refuses, is
the model's choice, log entry 8. -/
def Obligations.IllegalConfigurationIsRefused : Prop :=
  (∀ (cfg : ConfigRegs) (r : BitVec 32) (len : Nat), configLegal cfg r len = true ↔
      cfg.clk.toNat ≠ 0 ∧ cfg.srw.toNat = 16 ∧ cfg.flags.toNat = 0 ∧
      (cfg.q.toNat = 0 → cfg.clk.toNat * 2 ^ 20 / (if r.toNat = 0 then 44100 else r.toNat) < 2 ^ 32) ∧
      (cfg.q.toNat ≠ 0 → 16 ≤ cfg.clk.toNat) ∧ len < 2 ^ 32) ∧
    (∀ s : State, s.csd.status = .run → s.configLegal = false → step s = .refused .configurationRefused) ∧
    ∀ p : Params, Params.legal p = false → construct p = .refused .configurationRefused

/-- A running, legal machine whose host calls are legal always has a next state: no command is refused. The list of the
host's calls is log entry 6, and that an illegal rate is refused when it comes due, not before, log entry 7. -/
def Obligations.ReadyMachineAlwaysSteps : Prop :=
  ∀ s : State, s.ready = true → ∃ t, step s = .next t

/-- A word of the opcode table placed at the cursor is the instruction the next step runs. How a table word is read and
laid out, and how it is placed, are the model's choices, log entries 4 and 5. -/
def Obligations.PlacedTableWordIsRun : Prop :=
  ∀ (s : State) (nbits w : Nat) (i : Instr), s.configLegal = true → s.stream.wf = true → s.host = [] →
    decodeTableWord nbits w = some i → step (s.withFetchWord nbits w) = exec i (s.withFetchWord nbits w)

/-! ## The write byte -/

/-- A WR command is the execution of the form its write byte decodes to (rules R55, R64). That a write-byte form, as an
instruction by itself, is the WR that carries it is the model's reading, log entry 3 (DEDUCED). -/
def Obligations.WrRunsItsWriteByte : Prop :=
  ∀ (dd : Byte) (s : State), exec (.wr dd) s = exec (decodeWrite dd) s

/-- Rules R65 to R67: LT0, LT1, LT2 latch the channel's period register and replace its low 4 bits, keeping the high 6;
every other register of the PSG core is as before. That the form by itself is the WR that carries it, with `CUR` moved
by 2, is log entry 3 (DEDUCED); the host's countdown in its frame is log entry 6. -/
def Obligations.ToneLatchReplacesLowPeriodBits : Prop :=
  ∀ (d : BitVec 4) (s : State),
    (∃ t, exec (.lt0 d) s = .next t ∧ wroteOnlyPsg s t ∧
      t.psg = { s.psg with latch := 0#3, tone0 := { s.psg.tone0 with tp := t.psg.tone0.tp } } ∧
      t.psg.tone0.tp.toNat = s.psg.tone0.tp.toNat / 16 * 16 + d.toNat) ∧
    (∃ t, exec (.lt1 d) s = .next t ∧ wroteOnlyPsg s t ∧
      t.psg = { s.psg with latch := 2#3, tone1 := { s.psg.tone1 with tp := t.psg.tone1.tp } } ∧
      t.psg.tone1.tp.toNat = s.psg.tone1.tp.toNat / 16 * 16 + d.toNat) ∧
    (∃ t, exec (.lt2 d) s = .next t ∧ wroteOnlyPsg s t ∧
      t.psg = { s.psg with latch := 4#3, tone2 := { s.psg.tone2 with tp := t.psg.tone2.tp } } ∧
      t.psg.tone2.tp.toNat = s.psg.tone2.tp.toNat / 16 * 16 + d.toNat)

/-- Rules R68 to R70, R72: LV0 to LV3 latch the channel's volume register and set its attenuation; every other register
of the PSG core is as before. That the form by itself is the WR that carries it, with `CUR` moved by 2, is log entry 3
(DEDUCED); the host's countdown in its frame is log entry 6. -/
def Obligations.VolumeLatchSetsAttenuation : Prop :=
  ∀ (d : BitVec 4) (s : State),
    (∃ t, exec (.lv0 d) s = .next t ∧ wroteOnlyPsg s t ∧
      t.psg = { s.psg with latch := 1#3, tone0 := { s.psg.tone0 with att := d } }) ∧
    (∃ t, exec (.lv1 d) s = .next t ∧ wroteOnlyPsg s t ∧
      t.psg = { s.psg with latch := 3#3, tone1 := { s.psg.tone1 with att := d } }) ∧
    (∃ t, exec (.lv2 d) s = .next t ∧ wroteOnlyPsg s t ∧
      t.psg = { s.psg with latch := 5#3, tone2 := { s.psg.tone2 with att := d } }) ∧
    (∃ t, exec (.lv3 d) s = .next t ∧ wroteOnlyPsg s t ∧
      t.psg = { s.psg with latch := 7#3, noise := { s.psg.noise with att := d } })

/-- Rules R71, R74: LN latches address 6 and applies the noise control `d[2:0]`; the tone channels, `STEREO` and `BPH`
are as before. The periods 32, 64, 128 of the selectors are the spec's decision D31, `NP` kept by selector 3 its D11.
That the form by itself is the WR that carries it, with `CUR` moved by 2, is log entry 3 (DEDUCED); the host's
countdown in its frame is log entry 6. -/
def Obligations.NoiseLatchAppliesControl : Prop :=
  ∀ (d : BitVec 4) (s : State), ∃ t, exec (.ln d) s = .next t ∧ wroteOnlyPsg s t ∧
    t.psg = { s.psg with latch := 6#3, noise := t.psg.noise } ∧
    noiseControlled (d.toNat % 8) s.psg.noise t.psg.noise

/-- Rules R50, R73: DATA writes the register `LATCH` names: the high 6 bits of a period, or an attenuation, every other
register of the PSG core being as before; or the noise control, exactly as LN with the same three bits does (rule R74,
with the spec's decisions D11 and D31). That the form by itself is the WR that carries it, with `CUR` moved by 2, is
log entry 3 (DEDUCED); the host's countdown in its frame is log entry 6. -/
def Obligations.DataWritesTheLatchedRegister : Prop :=
  ∀ (e : BitVec 7) (s : State), ∃ t, exec (.data e) s = .next t ∧ wroteOnlyPsg s t ∧
    (∀ i : Fin 3, s.psg.latch.toNat = 2 * i.val →
      t.psg = s.psg.setTone i { s.psg.tone i with tp := (t.psg.tone i).tp } ∧
      (t.psg.tone i).tp.toNat = e.toNat % 64 * 16 + (s.psg.tone i).tp.toNat % 16) ∧
    (∀ c : Fin 4, s.psg.latch.toNat = 2 * c.val + 1 →
      t.psg = s.psg.setAtt c (t.psg.att c) ∧ (t.psg.att c).toNat = e.toNat % 16) ∧
    (s.psg.latch.toNat = 6 → ∃ u, exec (.ln (BitVec.ofNat 4 (e.toNat % 8))) s = .next u ∧ t.psg = u.psg)

/-- Rules R55, R64: whatever its byte, a WR completes, and it touches no counter, edge, accumulator, mute bit, panning
mask or phase; no configuration register, no step constant and no `CTIME`; no output and no stream byte. The host's
countdown in its frame is log entry 6. -/
def Obligations.WriteTouchesNoCounter : Prop :=
  ∀ (dd : Byte) (s : State), ∃ t, exec (.wr dd) s = .next t ∧ wroteOnlyPsg s t ∧
    (∀ i : Fin 3, (t.psg.tone i).tc = (s.psg.tone i).tc ∧ (t.psg.tone i).edge = (s.psg.tone i).edge ∧
      (t.psg.tone i).acc = (s.psg.tone i).acc ∧ (t.psg.tone i).mute = (s.psg.tone i).mute) ∧
    t.psg.noise.nc = s.psg.noise.nc ∧ t.psg.noise.acc = s.psg.noise.acc ∧
    t.psg.stereo = s.psg.stereo ∧ t.psg.bph = s.psg.bph

/-- Rule R75: the two write bytes of the programming protocol set a channel's whole 10-bit period, and change nothing
else of the PSG core but `LATCH`. -/
def Obligations.TwoWritesSetTheWholePeriod : Prop :=
  ∀ (i : Fin 3) (p : BitVec 10) (s : State), ∃ t u,
    exec (.wr (BitVec.ofNat 8 (0x80 + 0x20 * i.val + p.toNat % 16))) s = .next t ∧
    exec (.wr (BitVec.ofNat 8 (p.toNat / 16))) t = .next u ∧
    u.psg = { s.psg.setTone i { s.psg.tone i with tp := p } with latch := BitVec.ofNat 3 (2 * i.val) } ∧
    u.csd.cur = s.csd.cur + 4#32

/-! ## The waits and END -/

/-- Rule R61: every wait completes, whatever its count, provided the host's calls are legal, and appends exactly that
many items to `OUT`. The host's calls and where they act are log entries 6 and 7. -/
def Obligations.WaitsEmitTheirCount : Prop :=
  ∀ s : State, s.hostLegal = true →
    (∀ n, ∃ t, exec (.wait n) s = .next t ∧ waited n 3 s t) ∧
    (∃ t, exec .wait735 s = .next t ∧ waited 735 1 s t) ∧
    (∀ n, ∃ t, exec (.waits n) s = .next t ∧ waited n 1 s t)

/-- Rules R56 to R58: with no host call pending, a wait is its count of `Sample()` and `Emit` rounds and the cursor
past the command. -/
def Obligations.WaitsRunTheirSamples : Prop :=
  ∀ s : State, s.host = [] →
    (∀ n, exec (.wait n) s = .next (retire 3 (sampleAndEmit^[n] s))) ∧
    exec .wait735 s = .next (retire 1 (sampleAndEmit^[735] s)) ∧
    (∀ n, exec (.waits n) s = .next (retire 1 (sampleAndEmit^[n] s)))

/-- What the spec derives in rule R63: the wait forms of one count differ only in where they leave the cursor, and two
waits in a row act as one of their sum. -/
def Obligations.WaitFormsAgree : Prop :=
  ∀ s t : State,
    (∀ n, exec (.wait n) s = .next t →
      exec (.waits n) s = .next { t with csd := { t.csd with cur := s.csd.cur + 1#32 } }) ∧
    (exec (.wait 735) s = .next t →
      exec .wait735 s = .next { t with csd := { t.csd with cur := s.csd.cur + 1#32 } }) ∧
    (∀ a b u, exec (.wait a) s = .next t → exec (.wait b) t = .next u →
      exec (.wait (a + b)) s = .next { u with csd := { u.csd with cur := s.csd.cur + 3#32 } })

/-- The frame of the waits: with no host call pending, a wait leaves every programmed register, the step constants, the
configuration, the fault record and the stream as they were. -/
def Obligations.WaitsKeepTheProgrammedRegisters : Prop :=
  ∀ (s : State) (n : Nat), s.host = [] →
    ∀ i, i = .wait n ∨ i = .waits n ∨ i = .wait735 →
      ∃ t, exec i s = .next t ∧ samePsgSettings s.psg t.psg ∧ sameStepConstants s.src t.src ∧ t.cfg = s.cfg ∧
        t.stream.len = s.stream.len ∧ (∀ a, t.stream.read a = s.stream.read a) ∧
        t.csd = { s.csd with cur := t.csd.cur } ∧ t.host = []

/-- Rule R59: END halts the run with the cursor just past it (the spec's decision D17), whatever bytes follow or none,
and changes nothing else. -/
def Obligations.EndHaltsWhateverFollows : Prop :=
  (∀ s : State, exec .endOfStream s =
      .next { s with csd := { s.csd with cur := s.csd.cur + 1#32, status := .halt } }) ∧
    ∀ s : State, s.csd.status = .run → s.configLegal = true → s.host = [] → s.csd.cur.toNat < s.stream.len →
      s.stream.read s.csd.cur.toNat = 0x66#8 →
      step s = .next { s with csd := { s.csd with cur := s.csd.cur + 1#32, status := .halt } }

/-! ## The tick -/

/-- Rule R78: a tick splits `BPH + BINC` into `n` whole chip ticks, at most 256, and the fraction it keeps: `n` is 1
and `BPH` does not change when `BINC` is 2^24, and `n` is 0 while nothing carries. -/
def Obligations.PhaseStepSplitsTheSum : Prop :=
  ∀ (fb : BitVec 16) (binc : BitVec 32) (p : PsgCore),
    let n := phaseTicks p.bph binc
    let p' := advanceTick fb binc p
    2 ^ 24 * n + p'.bph.toNat = p.bph.toNat + binc.toNat ∧ n ≤ 256 ∧
    (binc.toNat = 2 ^ 24 → n = 1 ∧ p'.bph = p.bph) ∧ (p.bph.toNat + binc.toNat < 2 ^ 24 → n = 0)

/-- The running total the spec derives under rule R78: over `k` ticks the whole chip ticks and the fraction left make
up the whole sum, so from `BPH = 0` the total is `floor(k * BINC / 2^24)`. -/
def Obligations.PhaseKeepsTheRunningTotal : Prop :=
  ∀ (fb : BitVec 16) (binc : BitVec 32) (p : PsgCore) (k : Nat),
    let total := ((List.range k).map fun j => phaseTicks ((advanceTick fb binc)^[j] p).bph binc).sum
    2 ^ 24 * total + ((advanceTick fb binc)^[k] p).bph.toNat = p.bph.toNat + k * binc.toNat ∧
    (p.bph = 0#24 → total = k * binc.toNat / 2 ^ 24)

/-- Rule R82 with the spec's decisions D7 (a crossing is bit 10 of an 11-bit counter) and D9 (one toggle at most): what
one `AdvanceTick` does to a tone channel's counter and edge, `n` being the whole chip ticks of rule R78. -/
def Obligations.ToneCounterTick : Prop :=
  ∀ (fb : BitVec 16) (binc : BitVec 32) (p : PsgCore) (i : Fin 3),
    let n := (p.bph.toNat + binc.toNat) / 2 ^ 24
    let c := ((p.tone i).tc.toNat + n) % 2048
    let t' := (advanceTick fb binc p).tone i
    (c < 1024 → t'.tc.toNat = c ∧ t'.edge = (p.tone i).edge) ∧
    (1024 ≤ c → 1 < (p.tone i).tp.toNat → t'.tc.toNat = c - (p.tone i).tp.toNat ∧ t'.edge = !(p.tone i).edge) ∧
    (1024 ≤ c → (p.tone i).tp.toNat ≤ 1 → t'.tc.toNat = c ∧ t'.edge = true) ∧
    sameToneSettings (p.tone i) t'

/-- Rules R81, R83: every accumulator is updated once a tick, whatever the number of chip ticks: the volume of the
channel is added if it is on, by the seed's bit 0 or the edge after the tick, and the sum is halved. The volume is an
entry of rule R76's table, added unscaled (the spec's decision D12; log entry 17). The premise, and the last clause,
are the bound the spec derives in rule R31, which StepKeepsTheInvariants keeps. -/
def Obligations.AccumulatorsAddThenHalve : Prop :=
  ∀ (fb : BitVec 16) (binc : BitVec 32) (p : PsgCore), p.accBounded →
    let p' := advanceTick fb binc p
    (∀ i : Fin 3, (p'.tone i).acc.toNat = ((p.tone i).acc.toNat +
      (if (p'.tone i).edge = true ∧ (p.tone i).mute = false then volList.getD (p.tone i).att.toNat 0 else 0)) / 2) ∧
    p'.noise.acc.toNat = (p.noise.acc.toNat +
      (if p'.noise.seed.toNat % 2 = 1 then volList.getD p.noise.att.toNat 0 else 0)) / 2 ∧
    p'.accBounded

/-- Rules R79, R80 with the spec's decisions D8 (a crossing is bit 8 of a 9-bit counter), D9 (one shift at most), D10
(to the right, the feedback bit entering at bit 15) and D29 (only `NP` is clamped): what one `AdvanceTick` does to the
noise channel's counter and seed. In white mode the feedback bit is the exclusive or of the 16 bits of `SEED & FB`
(rules R7, R80), said here as: the number of bits set in both is odd. -/
def Obligations.NoiseCounterTick : Prop :=
  ∀ (fb : BitVec 16) (binc : BitVec 32) (p : PsgCore),
    let n := (p.bph.toNat + binc.toNat) / 2 ^ 24
    let c := (p.noise.nc.toNat + n) % 512
    let f := if p.noise.nmode = .white then
        decide ((List.range 16).countP (fun b => p.noise.seed.getLsbD b && fb.getLsbD b) % 2 = 1)
      else p.noise.seed.getLsbD 0
    let sub := if p.noise.nref = true then p.tone2.tp.toNat else max p.noise.np.toNat 1
    let z' := (advanceTick fb binc p).noise
    (c < 256 → z'.nc.toNat = c ∧ z'.seed = p.noise.seed) ∧
    (256 ≤ c → ((z'.nc.toNat : Int) = ((c : Int) - sub) % 512) ∧
      z'.seed.toNat = p.noise.seed.toNat / 2 + (if f = true then 32768 else 0)) ∧
    z'.np = p.noise.np ∧ z'.nmode = p.noise.nmode ∧ z'.nref = p.noise.nref ∧ z'.att = p.noise.att

/-- Rule R80 with the spec's decision D10: in periodic mode the seed rotates: sixteen shifts bring any seed back, and
from 0x8000 the single bit walks down one place a shift. -/
def Obligations.PeriodicSeedRotates : Prop :=
  (∀ fb seed : BitVec 16, (shiftSeed .periodic fb)^[16] seed = seed) ∧
    ∀ (fb : BitVec 16) (k : Nat), k < 16 → ((shiftSeed .periodic fb)^[k] 0x8000#16).toNat = 2 ^ (15 - k)

/-- What the spec derives in rule R84, for every `BINC`: with a degenerate period the counter counts on modulo 2048,
whatever the edge is, by the whole chip ticks that have gone by (`total` of PhaseKeepsTheRunningTotal, here in closed
form); the period stays, and the edge is high from the first tick that finds bit 10 of the counter set, and for ever if
it was high before. -/
def Obligations.DegeneratePeriodHoldsTheEdge : Prop :=
  ∀ (fb : BitVec 16) (binc : BitVec 32) (p : PsgCore) (i : Fin 3) (k : Nat), (p.tone i).tp.toNat ≤ 1 →
    let count := fun j => ((p.tone i).tc.toNat + (p.bph.toNat + j * binc.toNat) / 2 ^ 24) % 2048
    let t' := ((advanceTick fb binc)^[k] p).tone i
    t'.tc.toNat = count k ∧ t'.tp = (p.tone i).tp ∧ ((p.tone i).edge = true → t'.edge = true) ∧
      (t'.edge = true ↔ (p.tone i).edge = true ∨ ∃ j, 0 < j ∧ j ≤ k ∧ 1024 ≤ count j)

/-- What the spec derives in rule R86: at one chip tick per invocation, a tone channel whose counter and edge are 0
has no edge before its 1024th tick and a noise channel whose counter is 0 no shift before its 256th, whatever the
periods are. -/
def Obligations.NoCrossingBeforeTheThreshold : Prop :=
  ∀ (fb : BitVec 16) (p : PsgCore) (k : Nat),
    (∀ i : Fin 3, (p.tone i).tc = 0#11 → (p.tone i).edge = false → k < 1024 →
      (((advanceTick fb (BitVec.ofNat 32 (2 ^ 24)))^[k] p).tone i).edge = false ∧
      (((advanceTick fb (BitVec.ofNat 32 (2 ^ 24)))^[k] p).tone i).tc.toNat = k) ∧
    (p.noise.nc = 0#9 → k < 256 →
      ((advanceTick fb (BitVec.ofNat 32 (2 ^ 24)))^[k] p).noise.seed = p.noise.seed ∧
      ((advanceTick fb (BitVec.ofNat 32 (2 ^ 24)))^[k] p).noise.nc.toNat = k)

/-! ## Samples and mixers -/

/-- Rules R87, R88: the mono sum reduced to a signed 16-bit number, each stereo total to a signed 32-bit one (the
spec's decisions D26, D28); with the bounds and the mask of rules R22 and R31 nothing is lost and both ears get the
mono sum. -/
def Obligations.MixersSumTheAccumulators : Prop :=
  ∀ p : PsgCore,
    let a := fun c : Fin 4 => (p.acc c).toNat
    let ear := fun (base : Nat) (c : Fin 4) => if p.stereo.getLsbD (base + c.val) = true then a c else 0
    mix .mono p = .mono (Int.bmod (a 0 + a 1 + a 2 + a 3 : Nat) (2 ^ 16)) ∧
    mix .stereo p = .stereo (Int.bmod (ear 4 0 + ear 4 1 + ear 4 2 + ear 4 3 : Nat) (2 ^ 32))
      (Int.bmod (ear 0 0 + ear 0 1 + ear 0 2 + ear 0 3 : Nat) (2 ^ 32)) ∧
    (p.accBounded → mix .mono p = .mono (a 0 + a 1 + a 2 + a 3 : Nat) ∧
      (p.stereo = 0xFF#8 → mix .stereo p =
        .stereo (a 0 + a 1 + a 2 + a 3 : Nat) (a 0 + a 1 + a 2 + a 3 : Nat)))

/-- Rules R89, R90: a sample runs the ticks of its path, exactly one `AdvanceTick` when `Q = 0` and the loop of rule
R90 otherwise, then mixes the accumulators they leave; it writes what they write, and on the accurate path `CTIME`.
Here it is a whole round of rule R61: the item, of the mixer `OUTMODE` names (rule R95, the spec's decision D6), is
appended to `OUT` (rule R40), and the host's countdown moves (log entry 6). The loop is rule R90's only under the bound
of log entry 9, which AccurateSampleEndsByItsTest shows to be enough. -/
def Obligations.SampleRunsTheTicksOfItsPath : Prop :=
  ∀ s : State,
    (s.cfg.q = 0#8 → sampleAndEmit s = { s with
      psg := advanceTick s.cfg.fb s.src.binc s.psg
      outRev := mix s.cfg.outMode (advanceTick s.cfg.fb s.src.binc s.psg) :: s.outRev
      host := afterCoreOp s.host }) ∧
    (s.cfg.q ≠ 0#8 →
      let ticks := accurateTicks s.cfg.fb s.src s.psg
      sampleAndEmit s = { s with
        src := { s.src with ctime := ticks.1 }
        psg := ticks.2
        outRev := mix s.cfg.outMode ticks.2 :: s.outRev
        host := afterCoreOp s.host })

/-- Rule R90 on the accurate path, with the bounds the spec derives in rule R94 (`k ≤ 2^26`, `CTIME < CSTEP`): the loop
ends by its own test. A sample is some number `k` of `AdvanceTick`s of one chip tick each, just as many as take chip
time to the output time or past it, and chip time is again less than one chip tick ahead. The premise is the invariant
of rule R31. That the model's loop is bounded by `RSTEP` rounds is log entry 9 (DEDUCED); this says that the bound cuts
nothing short. -/
def Obligations.AccurateSampleEndsByItsTest : Prop :=
  ∀ s : State, s.Inv → s.cfg.q ≠ 0#8 → ∃ k,
    (sampleAndEmit s).psg = (advanceTick s.cfg.fb s.src.binc)^[k] s.psg ∧
    (∀ bph, phaseTicks bph s.src.binc = 1) ∧
    (sampleAndEmit s).src.ctime.toNat + s.src.rstep.toNat = s.src.ctime.toNat + k * s.src.cstep.toNat ∧
    (∀ j, j < k → s.src.ctime.toNat + j * s.src.cstep.toNat < s.src.rstep.toNat) ∧
    (sampleAndEmit s).src.ctime.toNat < s.src.cstep.toNat ∧ k ≤ 2 ^ 26 ∧
    (sampleAndEmit s).outRev = mix s.cfg.outMode (sampleAndEmit s).psg :: s.outRev

/-- Rule R112 and the source's property: with every attenuation at 15 and every accumulator at 0, as `Reset()` leaves
them, a wait of any length gives silence only and leaves the accumulators at 0. -/
def Obligations.SilenceAfterReset : Prop :=
  ∀ (s : State) (n : Nat), s.host = [] → (∀ c : Fin 4, s.psg.att c = 15#4 ∧ s.psg.acc c = 0#16) →
    ∃ t, exec (.wait n) s = .next t ∧ t.out = s.out ++ List.replicate n (silence s.cfg.outMode) ∧
      ∀ c : Fin 4, t.psg.att c = 15#4 ∧ t.psg.acc c = 0#16

/-! ## Construction and the host -/

/-- Rules R30, R111: `Construct` with legal arguments gives every register the value of the reset table, the values of
the spec's decisions among them: D2 (`CLKFLAGS`), D13 and D14 (the step constants), D16 (what its source's reset
omits), D19 (the fault record), D21 (`STATUS`). The last clause gives the invariants of rule R31 only where
`DATA_OFFSET ≤ LEN`: log entry 13 (DEDUCED). -/
def Obligations.ConstructGivesTheResetTable : Prop :=
  ∀ p : Params, Params.legal p = true → ∃ t, construct p = .next t ∧
    t.cfg.clk.toNat = p.clkRaw.toNat % 2 ^ 30 ∧ t.cfg.clkFlags.toNat = p.clkRaw.toNat / 2 ^ 30 ∧
    t.cfg.fb = p.fbIn ∧ t.cfg.srw = 16#8 ∧ t.cfg.flags = 0#8 ∧ t.cfg.q = p.qIn ∧ t.cfg.outMode = p.outModeIn ∧
    t.src.rate = (if p.rateIn = 0#32 then 44100#32 else p.rateIn) ∧ t.stepConstants ∧ t.src.ctime = 0#32 ∧
    (∀ i : Fin 3, t.psg.tone i =
      { tp := 0#10, tc := 0#11, edge := false, att := 15#4, mute := false, acc := 0#16 }) ∧
    t.psg.noise = { seed := 0x8000#16, nc := 0#9, np := 0#9, nmode := .periodic, nref := false, att := 15#4,
                    acc := 0#16 } ∧
    t.psg.latch = 0#3 ∧ t.psg.stereo = 0xFF#8 ∧ t.psg.bph = 0#24 ∧
    t.csd = { cur := p.dataOffset, status := .run, fcode := 0#2, fbyte := 0#8, faddr := 0#32 } ∧ t.out = [] ∧
    t.stream.len = p.stream.length ∧ (∀ a, a < p.stream.length → p.stream[a]? = some (t.stream.read a)) ∧
    (p.dataOffset.toNat ≤ p.stream.length → t.Inv)

/-- Rule R112: a due `Reset()` gives every register of the PSG core the value of the rule, those of `EDGE`, `MUTE`,
`NMODE`, `NREF`, `LATCH` and `BPH` being the spec's decision D16, changes nothing else, and is idempotent. Whatever
calls stand behind it act on that state, and where the next one is not yet due that state is what the host leaves. That
a due call acts at this point is log entries 6 and 7. -/
def Obligations.HostResetTouchesOnlyThePsg : Prop :=
  ∀ (s : State) (rest : List HostCall), s.host = { delay := 0, op := .reset } :: rest →
    let silent : Tone := { tp := 0#10, tc := 0#11, edge := false, att := 15#4, mute := false, acc := 0#16 }
    let core : PsgCore :=
      { tone0 := silent, tone1 := silent, tone2 := silent,
        noise := { seed := 0x8000#16, nc := 0#9, np := 0#9, nmode := .periodic, nref := false, att := 15#4,
                   acc := 0#16 },
        latch := 0#3, stereo := 0xFF#8, bph := 0#24 }
    hostTurn s = hostTurn { s with psg := core, host := rest } ∧
      ((∀ c ∈ rest.head?, c.delay ≠ 0) → hostTurn s = some { s with psg := core, host := rest }) ∧
      hostReset s = { s with psg := core } ∧ hostReset (hostReset s) = hostReset s

/-- Rules R91 to R93: a due `SetRate(r)` that keeps `ConfigLegal` sets `RATE` and the three constants by the formulas
and keeps everything else, `CTIME` and `BPH` included; one that does not is refused. The formulas and what is kept are
the spec's decisions D13 to D15; that a due call acts, and is refused, at this point is log entries 6 and 7. -/
def Obligations.SetRateRecomputesTheConstants : Prop :=
  ∀ (s : State) (r : BitVec 32), s.host = [{ delay := 0, op := .setRate r }] →
    (configLegal s.cfg r s.stream.len = false → hostTurn s = none) ∧
    (configLegal s.cfg r s.stream.len = true → ∃ t, hostTurn s = some t ∧
      t = { s with src := { t.src with ctime := s.src.ctime }, host := [] } ∧
      t.src.rate.toNat = (if r.toNat = 0 then 44100 else r.toNat) ∧
      (s.cfg.q = 0#8 → t.src.binc.toNat = s.cfg.clk.toNat * 2 ^ 20 / t.src.rate.toNat ∧
        t.src.rstep = 0#32 ∧ t.src.cstep = 0#32) ∧
      (s.cfg.q ≠ 0#8 → t.src.binc.toNat = 2 ^ 24 ∧ t.src.rstep.toNat = 2 ^ 31 / t.src.rate.toNat ∧
        t.src.cstep.toNat = 2 ^ 31 / (s.cfg.clk.toNat / 16)))

/-- Rule R106 and the spec's decisions D1, D30: a host call due after `k` samples of a longer wait takes place between
the `k`-th and the next one (the call's place as log entries 6 and 7 have it). -/
def Obligations.HostCallActsBetweenSamples : Prop :=
  ∀ (s u : State) (n k : Nat) (op : HostOp), s.host = [] → k < n →
    op.apply (sampleAndEmit^[k] s) = some u →
    exec (.wait n) (s.withHostCalls [{ delay := k, op := op }]) = .next (retire 3 (sampleAndEmit^[n - k] u))

/-! ## The whole machine -/

/-- The state after reset meets the invariants of rule R31. It is the state `Construct` leaves for the arguments the
model chose, log entry 1 (DESIGN CHOICE, unsafe: it says nothing of other arguments, which ConstructGivesTheResetTable
does). -/
def Obligations.ResetMeetsTheInvariants : Prop := State.reset.Inv

/-- The invariants the spec derives in rule R31: from every state that meets the invariants, a step gives a state that
meets them. -/
def Obligations.StepKeepsTheInvariants : Prop :=
  ∀ s t : State, s.Inv → step s = .next t → t.Inv

/-- Rules R10, R34, R43: no step, the host's calls included, writes the stream or a configuration register. -/
def Obligations.StepNeverWritesStreamOrConfiguration : Prop :=
  ∀ s t : State, step s = .next t →
    t.cfg = s.cfg ∧ t.stream.len = s.stream.len ∧ ∀ a, t.stream.read a = s.stream.read a

/-- Rules R28, R118: `OUT` only grows, and only a wait command makes it grow. -/
def Obligations.OutputOnlyGrows : Prop :=
  ∀ s t : State, step s = .next t →
    (∃ items, t.out = s.out ++ items) ∧
    ∀ s' i rest, hostTurn s = some s' → decode s'.fetchBytes = .ok (i, rest) →
      (∀ n, i ≠ .wait n) → (∀ n, i ≠ .waits n) → i ≠ .wait735 → t.out = s.out

/-- Rule R105: with no host call pending, no command changes the mute bits, the panning mask, the rate, the step
constants or the configuration. -/
def Obligations.StreamCannotReachHostRegisters : Prop :=
  ∀ s t : State, s.host = [] → step s = .next t →
    (∀ i : Fin 3, (t.psg.tone i).mute = (s.psg.tone i).mute) ∧ t.psg.stereo = s.psg.stereo ∧
    sameStepConstants s.src t.src ∧ t.cfg = s.cfg

/-- What the spec derives in rule R62: every step ends the run or moves the cursor forward, never past the end of the
stream. -/
def Obligations.StepEndsOrAdvances : Prop :=
  ∀ s t : State, step s = .next t →
    t.ended = true ∨ (s.csd.cur.toNat < t.csd.cur.toNat ∧ t.csd.cur.toNat ≤ s.stream.len)

/-- What the spec derives in rule R62: every run of a legal machine with legal host calls ends, in at most one step
more than there are bytes from the cursor to the end of the stream. -/
def Obligations.EveryRunEnds : Prop :=
  ∀ s : State, s.ready = true → ∃ k t, k ≤ s.stream.len - s.csd.cur.toNat + 1 ∧
    Host.Core.run Sys2Proof.core k s = .next t ∧ t.ended = true
end

