-- ==== Sys2Proof/Laws/Decode.lean ====
section
/-! SUPPORT. What the decoders can answer, said once: the cases of an accepted command, the cases of a refusal,
and the write byte as match value and data field. -/

namespace Sys2Proof

@[simp] theorem decode_nil : decode [] = .error .truncatedStream := rfl
@[simp] theorem decode_wr (dd : Byte) (r : List Byte) : decode (0x50#8 :: dd :: r) = .ok (.wr dd, r) := rfl
@[simp] theorem decode_wr_short : decode [0x50#8] = .error .truncatedStream := rfl
@[simp] theorem decode_wait (lo hi : Byte) (r : List Byte) :
    decode (0x61#8 :: lo :: hi :: r) = .ok (.wait (waitCount lo hi), r) := rfl
@[simp] theorem decode_wait_short (lo : Byte) : decode [0x61#8, lo] = .error .truncatedStream := rfl
@[simp] theorem decode_wait_shorter : decode [0x61#8] = .error .truncatedStream := rfl
@[simp] theorem decode_wait735 (r : List Byte) : decode (0x62#8 :: r) = .ok (.wait735, r) := rfl
@[simp] theorem decode_endOfStream (r : List Byte) : decode (0x66#8 :: r) = .ok (.endOfStream, r) := rfl

/-- The high nibble 0x7 singles out the 16 opcodes of WAITS. -/
theorem high_nibble_seven (op : Byte) : op.extractLsb' 4 4 = 0x7#4 ↔ 0x70 ≤ op.toNat ∧ op.toNat ≤ 0x7F := by
  revert op; decide

theorem waitsCount_eq (op : Byte) (h : op.extractLsb' 4 4 = 0x7#4) : waitsCount op = op.toNat - 0x70 + 1 := by
  revert op; decide

theorem waits_opcode_kinds (op : Byte) (h : op.extractLsb' 4 4 = 0x7#4) :
    op ≠ 0x50#8 ∧ op ≠ 0x61#8 ∧ op ≠ 0x62#8 ∧ op ≠ 0x66#8 := by
  revert op; decide

theorem decode_waits (op : Byte) (r : List Byte) (h : op.extractLsb' 4 4 = 0x7#4) :
    decode (op :: r) = .ok (.waits (waitsCount op), r) := by
  obtain ⟨h0, h1, h2, -⟩ := waits_opcode_kinds op h
  simp [decode, h0, h1, h2, h]

/-- Every answer of the decoder on a non-empty list, by the opcode byte. -/
theorem decode_cases (op : Byte) (bs : List Byte) :
    (op = 0x50#8 ∧ bs = [] ∧ decode (op :: bs) = .error .truncatedStream) ∨
    (op = 0x50#8 ∧ ∃ dd r, bs = dd :: r ∧ decode (op :: bs) = .ok (.wr dd, r)) ∨
    (op = 0x61#8 ∧ bs.length < 2 ∧ decode (op :: bs) = .error .truncatedStream) ∨
    (op = 0x61#8 ∧ ∃ lo hi r, bs = lo :: hi :: r ∧ decode (op :: bs) = .ok (.wait (waitCount lo hi), r)) ∨
    (op = 0x62#8 ∧ decode (op :: bs) = .ok (.wait735, bs)) ∨
    (op = 0x66#8 ∧ decode (op :: bs) = .ok (.endOfStream, bs)) ∨
    (op.extractLsb' 4 4 = 0x7#4 ∧ decode (op :: bs) = .ok (.waits (waitsCount op), bs)) ∨
    (op ≠ 0x50#8 ∧ op ≠ 0x61#8 ∧ op ≠ 0x62#8 ∧ op ≠ 0x66#8 ∧ op.extractLsb' 4 4 ≠ 0x7#4 ∧
      decode (op :: bs) = .error (.unsupportedOpcode op)) := by
  by_cases h0 : op = 0x50#8
  · subst h0
    cases bs with
    | nil => exact .inl ⟨rfl, rfl, rfl⟩
    | cons dd r => exact .inr (.inl ⟨rfl, dd, r, rfl, rfl⟩)
  by_cases h1 : op = 0x61#8
  · subst h1
    match bs with
    | [] => exact .inr (.inr (.inl ⟨rfl, by simp, rfl⟩))
    | [_] => exact .inr (.inr (.inl ⟨rfl, by simp, rfl⟩))
    | lo :: hi :: r => exact .inr (.inr (.inr (.inl ⟨rfl, lo, hi, r, rfl, rfl⟩)))
  by_cases h2 : op = 0x62#8
  · subst h2; exact .inr (.inr (.inr (.inr (.inl ⟨rfl, rfl⟩))))
  by_cases h3 : op = 0x66#8
  · subst h3; exact .inr (.inr (.inr (.inr (.inr (.inl ⟨rfl, rfl⟩)))))
  by_cases h4 : op.extractLsb' 4 4 = 0x7#4
  · exact .inr (.inr (.inr (.inr (.inr (.inr (.inl ⟨h4, decode_waits op bs h4⟩))))))
  · exact .inr (.inr (.inr (.inr (.inr (.inr (.inr ⟨h0, h1, h2, h3, h4, by simp [decode, h0, h1, h2, h3, h4]⟩))))))

/-- The commands the decoder accepts, with the bytes each takes. -/
theorem decode_ok_cases {bs : List Byte} {i : Instr} {rest : List Byte} (h : decode bs = .ok (i, rest)) :
    (∃ dd, i = .wr dd ∧ bs = 0x50#8 :: dd :: rest) ∨
    (∃ lo hi, i = .wait (waitCount lo hi) ∧ bs = 0x61#8 :: lo :: hi :: rest) ∨
    (i = .wait735 ∧ bs = 0x62#8 :: rest) ∨
    (i = .endOfStream ∧ bs = 0x66#8 :: rest) ∨
    (∃ op, op.extractLsb' 4 4 = 0x7#4 ∧ i = .waits (waitsCount op) ∧ bs = op :: rest) := by
  cases bs with
  | nil => simp at h
  | cons op bs =>
    rcases decode_cases op bs with ⟨-, -, e⟩ | ⟨ho, dd, r, hb, e⟩ | ⟨-, -, e⟩ | ⟨ho, lo, hi, r, hb, e⟩ | ⟨ho, e⟩ |
      ⟨ho, e⟩ | ⟨ho, e⟩ | ⟨-, -, -, -, -, e⟩ <;> rw [e] at h <;> simp at h <;> obtain ⟨rfl, rfl⟩ := h
    · exact .inl ⟨dd, rfl, by rw [ho, hb]⟩
    · exact .inr (.inl ⟨lo, hi, rfl, by rw [ho, hb]⟩)
    · exact .inr (.inr (.inl ⟨rfl, by rw [ho]⟩))
    · exact .inr (.inr (.inr (.inl ⟨rfl, by rw [ho]⟩)))
    · exact .inr (.inr (.inr (.inr ⟨op, ho, rfl, rfl⟩)))

/-- The value of a format-PL byte: its match nibble and its data field. -/
theorem pl_byte (m d : BitVec 4) (h : m.getLsbD 3 = true) :
    (m ++ d).getLsbD 7 = true ∧ plData (m ++ d) = d ∧ plAddr (m ++ d) = m.setWidth 3 := by
  revert m d; decide

theorem pd_byte (e : BitVec 7) : (0#1 ++ e).getLsbD 7 = false ∧ (0#1 ++ e).extractLsb' 0 7 = e := by
  revert e; decide

/-- A format-PL byte decodes by its address. -/
theorem decodeWrite_pl (m d : BitVec 4) (h : m.getLsbD 3 = true) :
    decodeWrite (m ++ d) =
      match m.toNat with
      | 8 => .lt0 d
      | 9 => .lv0 d
      | 10 => .lt1 d
      | 11 => .lv1 d
      | 12 => .lt2 d
      | 13 => .lv2 d
      | 14 => .ln d
      | _ => .lv3 d := by
  revert m d; decide

theorem decodeWrite_pd (e : BitVec 7) : decodeWrite (0#1 ++ e) = .data e := by
  obtain ⟨h1, h2⟩ := pd_byte e
  rw [decodeWrite, h1, h2]; rfl

end Sys2Proof
end

