-- ==== Sys2Proof/Laws/Eval.lean ====
section
/-! SUPPORT. The evaluation-order functions of Machine/Eval.lean are the identity in meaning. -/

namespace Sys2Proof.Machine

@[simp] theorem evaluated_eq {α : Type} {w : Nat} (x : BitVec w) (f : BitVec w → α) : evaluated x f = f x := by
  unfold evaluated
  split <;> rename_i h <;> refine congrArg f (BitVec.eq_of_toNat_eq ?_) <;> rw [BitVec.toNat_ofNat, h] <;>
    exact Nat.mod_eq_of_lt (by have := x.isLt; omega)

@[simp] theorem evaluatedFlag_eq {α : Type} (b : Bool) (f : Bool → α) : evaluatedFlag b f = f b := by
  cases b <;> rfl

@[simp] theorem Tone.evaluated_eq {α : Type} (t : Tone) (f : Tone → α) : t.evaluated f = f t := by
  simp [Tone.evaluated]

@[simp] theorem NoiseMode.evaluated_eq {α : Type} (m : NoiseMode) (f : NoiseMode → α) : m.evaluated f = f m := by
  cases m <;> rfl

@[simp] theorem Noise.evaluated_eq {α : Type} (z : Noise) (f : Noise → α) : z.evaluated f = f z := by
  simp [Noise.evaluated]

@[simp] theorem PsgCore.evaluated_eq {α : Type} (p : PsgCore) (f : PsgCore → α) : p.evaluated f = f p := by
  simp [PsgCore.evaluated]

@[simp] theorem ConfigRegs.evaluated_eq {α : Type} (c : ConfigRegs) (f : ConfigRegs → α) : c.evaluated f = f c := by
  obtain ⟨clk, clkFlags, fb, srw, flags, q, outMode⟩ := c
  cases outMode <;> simp [ConfigRegs.evaluated]

@[simp] theorem RateRegs.evaluated_eq {α : Type} (x : RateRegs) (f : RateRegs → α) : x.evaluated f = f x := by
  simp [RateRegs.evaluated]

@[simp] theorem State.evaluated_eq {α : Type} (s : State) (f : State → α) : s.evaluated f = f s := by
  simp [State.evaluated]

end Sys2Proof.Machine
end

