-- ==== Sys2Proof/Laws/Memory.lean ====
section
/-! SUPPORT. The laws of the stream's listed form: every operation keeps it, a placed byte reads back, and the
window at an index is the bytes from there up to the length. -/

namespace Sys2Proof.Machine

@[simp] theorem read_nil (a : Nat) : Memory.read [] a = Memory.unlisted := rfl

theorem read_of_above (m : List Host.Cell) (a : Nat) (h : Memory.above a m = true) :
    Memory.read m a = Memory.unlisted := by
  induction m with
  | nil => rfl
  | cons c rest ih =>
    simp only [Memory.above, List.all_cons, Bool.and_eq_true, decide_eq_true_eq] at h
    have hne : c.1 ≠ a := by omega
    simp [Memory.read, hne, ih (by simpa [Memory.above] using h.2)]

theorem above_mono {m : List Host.Cell} {a b : Nat} (hab : a ≤ b) (h : Memory.above b m = true) :
    Memory.above a m = true := by
  simp only [Memory.above, List.all_eq_true, decide_eq_true_eq] at h ⊢
  intro c hc
  have := h c hc
  omega

theorem wf_cons_iff (k : Nat) (b : Byte) (rest : List Host.Cell) :
    Memory.wf ((k, b) :: rest) = true ↔
      Memory.above k rest = true ∧ b ≠ Memory.unlisted ∧ Memory.wf rest = true := by
  simp [Memory.wf, and_assoc]

/-- `Memory.cons` in front of a list above it keeps the form. -/
theorem wf_cons {a : Nat} {b : Byte} {m : List Host.Cell} (h : Memory.above a m = true) (hm : Memory.wf m = true) :
    Memory.wf (Memory.cons a b m) = true := by
  unfold Memory.cons
  split
  · exact hm
  · exact (wf_cons_iff a b m).2 ⟨h, ‹_›, hm⟩

theorem read_cons {a : Nat} {b : Byte} {m : List Host.Cell} (h : Memory.above a m = true) (x : Nat) :
    Memory.read (Memory.cons a b m) x = if x = a then b else Memory.read m x := by
  unfold Memory.cons
  by_cases hb : b = Memory.unlisted
  · by_cases hx : x = a
    · subst hx; simp [hb, read_of_above m x h]
    · simp [hb, hx]
  · by_cases hx : x = a
    · simp [hb, hx, Memory.read]
    · have hx' : a ≠ x := fun e => hx e.symm
      simp [hb, hx, hx', Memory.read]

theorem above_cons {a k : Nat} {b : Byte} {m : List Host.Cell} (hk : k < a) (h : Memory.above k m = true) :
    Memory.above k (Memory.cons a b m) = true := by
  unfold Memory.cons
  split
  · exact h
  · simpa [Memory.above, hk] using h

theorem above_write {k a : Nat} {b : Byte} {m : List Host.Cell} (hk : k < a) (h : Memory.above k m = true) :
    Memory.above k (Memory.write m a b) = true := by
  induction m with
  | nil => exact above_cons hk (by rfl)
  | cons c rest ih =>
    obtain ⟨i, v⟩ := c
    have hrest : Memory.above k rest = true := by
      simp only [Memory.above, List.all_cons, Bool.and_eq_true] at h ⊢; exact h.2
    have hi : k < i := by
      simp only [Memory.above, List.all_cons, Bool.and_eq_true, decide_eq_true_eq] at h; exact h.1
    unfold Memory.write
    split
    · exact above_cons hk h
    · split
      · exact above_cons hk hrest
      · have := ih hrest
        simpa [Memory.above, hi] using this

/-- Placing a byte keeps the canonical form. -/
theorem wf_write {m : List Host.Cell} (a : Nat) (b : Byte) (hm : Memory.wf m = true) :
    Memory.wf (Memory.write m a b) = true := by
  induction m with
  | nil => exact wf_cons rfl rfl
  | cons c rest ih =>
    obtain ⟨k, v⟩ := c
    obtain ⟨habove, hv, hrest⟩ := (wf_cons_iff k v rest).1 hm
    unfold Memory.write
    split
    · rename_i hlt
      refine wf_cons ?_ hm
      have := above_mono (Nat.le_of_lt hlt) habove
      simpa [Memory.above, hlt] using this
    · split
      · rename_i hk
        exact wf_cons (hk ▸ habove) hrest
      · exact (wf_cons_iff _ _ _).2 ⟨above_write (by omega) habove, hv, ih hrest⟩

/-- What reads after placing a byte. -/
theorem read_write {m : List Host.Cell} (a : Nat) (b : Byte) (x : Nat) (hm : Memory.wf m = true) :
    Memory.read (Memory.write m a b) x = if x = a then b else Memory.read m x := by
  induction m with
  | nil => exact read_cons rfl x
  | cons c rest ih =>
    obtain ⟨k, v⟩ := c
    obtain ⟨habove, hv, hrest⟩ := (wf_cons_iff k v rest).1 hm
    unfold Memory.write
    split
    · rename_i hlt
      refine read_cons ?_ x
      have := above_mono (Nat.le_of_lt hlt) habove
      simpa [Memory.above, hlt] using this
    · split
      · rename_i hk
        subst hk
        rw [read_cons habove]
        by_cases hx : x = k
        · simp [hx]
        · have hx' : k ≠ x := fun e => hx e.symm
          simp [hx, hx', Memory.read]
      · rename_i hlt hk
        by_cases hx : k = x
        · subst hx; simp [Memory.read, hk]
        · simp [Memory.read, hx, ih hrest]

theorem wf_place {m : List Host.Cell} (a : Nat) (bs : List Byte) (hm : Memory.wf m = true) :
    Memory.wf (Memory.place m a bs) = true := by
  induction bs generalizing a with
  | nil => exact hm
  | cons b rest ih => exact wf_write a b (ih (a + 1))

/-- What reads after placing a byte sequence at `a`. -/
theorem read_place {m : List Host.Cell} (a : Nat) (bs : List Byte) (x : Nat) (hm : Memory.wf m = true) :
    Memory.read (Memory.place m a bs) x = if a ≤ x then (bs[x - a]?).getD (Memory.read m x) else Memory.read m x := by
  induction bs generalizing a with
  | nil => simp [Memory.place]
  | cons b rest ih =>
    simp only [Memory.place]
    rw [read_write _ _ _ (wf_place _ _ hm), ih (a + 1)]
    by_cases hx : x = a
    · simp [hx]
    · by_cases hle : a ≤ x
      · obtain ⟨d, rfl⟩ : ∃ d, x = a + 1 + d := ⟨x - (a + 1), by omega⟩
        have h1 : a + 1 + d - a = d + 1 := by omega
        have h2 : a + 1 + d - (a + 1) = d := by omega
        simp [hx, hle, h1, h2]
      · have : ¬ a + 1 ≤ x := by omega
        simp [hx, hle, this]

theorem above_ofBytes (k a : Nat) (bs : List Byte) (h : k < a) : Memory.above k (Memory.ofBytes a bs) = true := by
  induction bs generalizing a with
  | nil => rfl
  | cons b rest ih => exact above_cons h (ih (a + 1) (by omega))

theorem wf_ofBytes (a : Nat) (bs : List Byte) : Memory.wf (Memory.ofBytes a bs) = true := by
  induction bs generalizing a with
  | nil => rfl
  | cons b rest ih => exact wf_cons (above_ofBytes _ _ _ (by omega)) (ih (a + 1))

/-- The listed form of a byte sequence reads as the sequence. -/
theorem read_ofBytes (a : Nat) (bs : List Byte) (x : Nat) (h : a ≤ x) :
    Memory.read (Memory.ofBytes a bs) x = (bs[x - a]?).getD Memory.unlisted := by
  induction bs generalizing a with
  | nil => simp [Memory.ofBytes]
  | cons b rest ih =>
    simp only [Memory.ofBytes]
    rw [read_cons (above_ofBytes _ _ _ (by omega))]
    by_cases hx : x = a
    · simp [hx]
    · obtain ⟨d, rfl⟩ : ∃ d, x = a + 1 + d := ⟨x - (a + 1), by omega⟩
      have h1 : a + 1 + d - a = d + 1 := by omega
      have h2 : a + 1 + d - (a + 1) = d := by omega
      simp [hx, h1, ih (a + 1) (by omega), h2]

theorem ofBytes_below (a : Nat) (bs : List Byte) :
    ∀ c ∈ Memory.ofBytes a bs, c.1 < a + bs.length := by
  induction bs generalizing a with
  | nil => intro c hc; cases hc
  | cons b rest ih =>
    intro c hc
    have hlen : (b :: rest).length = rest.length + 1 := rfl
    rw [hlen]
    simp only [Memory.ofBytes, Memory.cons] at hc
    split at hc
    · have := ih (a + 1) c hc; omega
    · rcases List.mem_cons.1 hc with rfl | hc
      · show a < _; omega
      · have := ih (a + 1) c hc; omega

/-- The stream that a byte sequence is has the canonical form. -/
theorem stream_ofBytes_wf (bs : List Byte) : (Stream.ofBytes bs).wf = true := by
  simp only [Stream.wf, Stream.ofBytes, wf_ofBytes, Bool.true_and, List.all_eq_true]
  intro c hc
  have := ofBytes_below 0 bs c hc
  exact decide_eq_true (by omega)

/-- How many bytes the window shows. -/
theorem window_length (st : Stream) (a n : Nat) : (st.window a n).length = min n (st.len - a) := by
  induction n generalizing a with
  | zero => simp [Stream.window]
  | succ n ih =>
    unfold Stream.window
    split
    · simp only [List.length_cons, ih]; omega
    · simp only [List.length_nil]; omega

/-- Which bytes the window shows. -/
theorem window_getElem (st : Stream) (a n k : Nat) (hk : k < n) (hlen : a + k < st.len) :
    (st.window a n)[k]? = some (st.read (a + k)) := by
  induction n generalizing a k with
  | zero => omega
  | succ n ih =>
    have ha : a < st.len := by omega
    unfold Stream.window
    rw [if_pos ha]
    cases k with
    | zero => simp
    | succ k =>
      have := ih (a + 1) k (by omega) (by omega)
      simpa [Nat.add_assoc, Nat.add_comm 1 k] using this

/-- The bytes at the cursor, case by case of how many there are. -/
theorem fetchBytes_cases (s : State) :
    (s.stream.len ≤ s.csd.cur.toNat ∧ s.fetchBytes = []) ∨
    (s.stream.len = s.csd.cur.toNat + 1 ∧ s.fetchBytes = [s.stream.read s.csd.cur.toNat]) ∨
    (s.stream.len = s.csd.cur.toNat + 2 ∧
      s.fetchBytes = [s.stream.read s.csd.cur.toNat, s.stream.read (s.csd.cur.toNat + 1)]) ∨
    (s.csd.cur.toNat + 3 ≤ s.stream.len ∧
      s.fetchBytes = [s.stream.read s.csd.cur.toNat, s.stream.read (s.csd.cur.toNat + 1),
        s.stream.read (s.csd.cur.toNat + 2)]) := by
  simp only [State.fetchBytes, maxCommandLength, Stream.window, Nat.add_assoc]
  by_cases h0 : s.csd.cur.toNat < s.stream.len
  · by_cases h1 : s.csd.cur.toNat + 1 < s.stream.len
    · by_cases h2 : s.csd.cur.toNat + (1 + 1) < s.stream.len
      · refine .inr (.inr (.inr ⟨by omega, ?_⟩)); simp [h0, h1, h2]
      · refine .inr (.inr (.inl ⟨by omega, ?_⟩)); simp [h0, h1, h2]
    · refine .inr (.inl ⟨by omega, ?_⟩); simp [h0, h1]
  · exact .inl ⟨by omega, by simp [h0]⟩

end Sys2Proof.Machine
end

