-- ==== Sys2Proof/Laws/State.lean ====
section
/-! SUPPORT. One lemma per field per update of State, and the same for the PSG core's updates: true by
unfolding, so that no later proof unfolds a record update. -/

namespace Sys2Proof.Machine

/-! Updates of the whole state. -/

@[simp] theorem retire_cfg (len : Nat) (s : State) : (retire len s).cfg = s.cfg := rfl
@[simp] theorem retire_src (len : Nat) (s : State) : (retire len s).src = s.src := rfl
@[simp] theorem retire_psg (len : Nat) (s : State) : (retire len s).psg = s.psg := rfl
@[simp] theorem retire_csd (len : Nat) (s : State) : (retire len s).csd = { s.csd with cur := s.csd.cur + BitVec.ofNat 32 len } := rfl
@[simp] theorem retire_outRev (len : Nat) (s : State) : (retire len s).outRev = s.outRev := rfl
@[simp] theorem retire_stream (len : Nat) (s : State) : (retire len s).stream = s.stream := rfl
@[simp] theorem retire_host (len : Nat) (s : State) : (retire len s).host = s.host := rfl

@[simp] theorem raiseFault_cfg (code : BitVec 2) (byte : Byte) (s : State) : (raiseFault code byte s).cfg = s.cfg := rfl
@[simp] theorem raiseFault_src (code : BitVec 2) (byte : Byte) (s : State) : (raiseFault code byte s).src = s.src := rfl
@[simp] theorem raiseFault_psg (code : BitVec 2) (byte : Byte) (s : State) : (raiseFault code byte s).psg = s.psg := rfl
@[simp] theorem raiseFault_csd (code : BitVec 2) (byte : Byte) (s : State) : (raiseFault code byte s).csd = { cur := s.csd.cur, status := .fault, fcode := code, fbyte := byte, faddr := s.csd.cur } := rfl
@[simp] theorem raiseFault_outRev (code : BitVec 2) (byte : Byte) (s : State) : (raiseFault code byte s).outRev = s.outRev := rfl
@[simp] theorem raiseFault_stream (code : BitVec 2) (byte : Byte) (s : State) : (raiseFault code byte s).stream = s.stream := rfl
@[simp] theorem raiseFault_host (code : BitVec 2) (byte : Byte) (s : State) : (raiseFault code byte s).host = s.host := rfl

@[simp] theorem haltRun_cfg (s : State) : (haltRun s).cfg = s.cfg := rfl
@[simp] theorem haltRun_src (s : State) : (haltRun s).src = s.src := rfl
@[simp] theorem haltRun_psg (s : State) : (haltRun s).psg = s.psg := rfl
@[simp] theorem haltRun_csd (s : State) : (haltRun s).csd = { s.csd with status := .halt } := rfl
@[simp] theorem haltRun_outRev (s : State) : (haltRun s).outRev = s.outRev := rfl
@[simp] theorem haltRun_stream (s : State) : (haltRun s).stream = s.stream := rfl
@[simp] theorem haltRun_host (s : State) : (haltRun s).host = s.host := rfl

@[simp] theorem emit_cfg (x : Item) (s : State) : (emit x s).cfg = s.cfg := rfl
@[simp] theorem emit_src (x : Item) (s : State) : (emit x s).src = s.src := rfl
@[simp] theorem emit_psg (x : Item) (s : State) : (emit x s).psg = s.psg := rfl
@[simp] theorem emit_csd (x : Item) (s : State) : (emit x s).csd = s.csd := rfl
@[simp] theorem emit_outRev (x : Item) (s : State) : (emit x s).outRev = x :: s.outRev := rfl
@[simp] theorem emit_stream (x : Item) (s : State) : (emit x s).stream = s.stream := rfl
@[simp] theorem emit_host (x : Item) (s : State) : (emit x s).host = s.host := rfl

@[simp] theorem hostReset_cfg (s : State) : (hostReset s).cfg = s.cfg := rfl
@[simp] theorem hostReset_src (s : State) : (hostReset s).src = s.src := rfl
@[simp] theorem hostReset_psg (s : State) : (hostReset s).psg = PsgCore.reset := rfl
@[simp] theorem hostReset_csd (s : State) : (hostReset s).csd = s.csd := rfl
@[simp] theorem hostReset_outRev (s : State) : (hostReset s).outRev = s.outRev := rfl
@[simp] theorem hostReset_stream (s : State) : (hostReset s).stream = s.stream := rfl
@[simp] theorem hostReset_host (s : State) : (hostReset s).host = s.host := rfl

@[simp] theorem withHostCalls_cfg (s : State) (calls : List HostCall) : (s.withHostCalls calls).cfg = s.cfg := rfl
@[simp] theorem withHostCalls_src (s : State) (calls : List HostCall) : (s.withHostCalls calls).src = s.src := rfl
@[simp] theorem withHostCalls_psg (s : State) (calls : List HostCall) : (s.withHostCalls calls).psg = s.psg := rfl
@[simp] theorem withHostCalls_csd (s : State) (calls : List HostCall) : (s.withHostCalls calls).csd = s.csd := rfl
@[simp] theorem withHostCalls_outRev (s : State) (calls : List HostCall) : (s.withHostCalls calls).outRev = s.outRev := rfl
@[simp] theorem withHostCalls_stream (s : State) (calls : List HostCall) : (s.withHostCalls calls).stream = s.stream := rfl
@[simp] theorem withHostCalls_host (s : State) (calls : List HostCall) : (s.withHostCalls calls).host = calls := rfl

@[simp] theorem writeCommand_cfg (f : PsgCore → PsgCore) (s : State) : (writeCommand f s).cfg = s.cfg := rfl
@[simp] theorem writeCommand_src (f : PsgCore → PsgCore) (s : State) : (writeCommand f s).src = s.src := rfl
@[simp] theorem writeCommand_psg (f : PsgCore → PsgCore) (s : State) : (writeCommand f s).psg = f s.psg := rfl
@[simp] theorem writeCommand_csd (f : PsgCore → PsgCore) (s : State) : (writeCommand f s).csd = { s.csd with cur := s.csd.cur + 2#32 } := rfl
@[simp] theorem writeCommand_outRev (f : PsgCore → PsgCore) (s : State) : (writeCommand f s).outRev = s.outRev := rfl
@[simp] theorem writeCommand_stream (f : PsgCore → PsgCore) (s : State) : (writeCommand f s).stream = s.stream := rfl
@[simp] theorem writeCommand_host (f : PsgCore → PsgCore) (s : State) : (writeCommand f s).host = afterCoreOp s.host := rfl

@[simp] theorem emit_out (x : Item) (s : State) : (emit x s).out = s.out ++ [x] := by
  simp [State.out]

theorem out_congr {s t : State} (h : t.outRev = s.outRev) : t.out = s.out := by
  simp [State.out, h]

/-! Updates of the PSG core, channel by channel. -/

@[simp] theorem tone_setTone (p : PsgCore) (i : Fin 3) (t : Tone) : (p.setTone i t).tone i = t := by
  fin_cases i <;> rfl

theorem tone_setTone_other (p : PsgCore) (i j : Fin 3) (t : Tone) (h : j ≠ i) :
    (p.setTone i t).tone j = p.tone j := by
  fin_cases i <;> fin_cases j <;> first | rfl | exact absurd rfl h

@[simp] theorem setTone_noise (p : PsgCore) (i : Fin 3) (t : Tone) : (p.setTone i t).noise = p.noise := by
  fin_cases i <;> rfl

@[simp] theorem setTone_latch (p : PsgCore) (i : Fin 3) (t : Tone) : (p.setTone i t).latch = p.latch := by
  fin_cases i <;> rfl

@[simp] theorem setTone_stereo (p : PsgCore) (i : Fin 3) (t : Tone) : (p.setTone i t).stereo = p.stereo := by
  fin_cases i <;> rfl

@[simp] theorem setTone_bph (p : PsgCore) (i : Fin 3) (t : Tone) : (p.setTone i t).bph = p.bph := by
  fin_cases i <;> rfl

@[simp] theorem att_setAtt (p : PsgCore) (c : Fin 4) (d : BitVec 4) : (p.setAtt c d).att c = d := by
  fin_cases c <;> rfl

@[simp] theorem setLatch_latch (a : BitVec 3) (p : PsgCore) : (setLatch a p).latch = a := rfl
@[simp] theorem setLatch_tone (a : BitVec 3) (p : PsgCore) (i : Fin 3) : (setLatch a p).tone i = p.tone i := by
  fin_cases i <;> rfl
@[simp] theorem setLatch_noise (a : BitVec 3) (p : PsgCore) : (setLatch a p).noise = p.noise := rfl
@[simp] theorem setLatch_stereo (a : BitVec 3) (p : PsgCore) : (setLatch a p).stereo = p.stereo := rfl
@[simp] theorem setLatch_bph (a : BitVec 3) (p : PsgCore) : (setLatch a p).bph = p.bph := rfl

@[simp] theorem noiseCtl_noise (c : BitVec 3) (p : PsgCore) : (noiseCtl c p).noise = p.noise.control c := rfl
@[simp] theorem noiseCtl_latch (c : BitVec 3) (p : PsgCore) : (noiseCtl c p).latch = p.latch := rfl
@[simp] theorem noiseCtl_stereo (c : BitVec 3) (p : PsgCore) : (noiseCtl c p).stereo = p.stereo := rfl
@[simp] theorem noiseCtl_bph (c : BitVec 3) (p : PsgCore) : (noiseCtl c p).bph = p.bph := rfl
@[simp] theorem noiseCtl_tone (c : BitVec 3) (p : PsgCore) (i : Fin 3) : (noiseCtl c p).tone i = p.tone i := by
  fin_cases i <;> rfl

@[simp] theorem tone_zero (p : PsgCore) : p.tone 0 = p.tone0 := rfl
@[simp] theorem tone_one (p : PsgCore) : p.tone 1 = p.tone1 := rfl
@[simp] theorem tone_two (p : PsgCore) : p.tone 2 = p.tone2 := rfl
@[simp] theorem att_zero (p : PsgCore) : p.att 0 = p.tone0.att := rfl
@[simp] theorem att_one (p : PsgCore) : p.att 1 = p.tone1.att := rfl
@[simp] theorem att_two (p : PsgCore) : p.att 2 = p.tone2.att := rfl
@[simp] theorem att_three (p : PsgCore) : p.att 3 = p.noise.att := rfl
@[simp] theorem acc_zero (p : PsgCore) : p.acc 0 = p.tone0.acc := rfl
@[simp] theorem acc_one (p : PsgCore) : p.acc 1 = p.tone1.acc := rfl
@[simp] theorem acc_two (p : PsgCore) : p.acc 2 = p.tone2.acc := rfl
@[simp] theorem acc_three (p : PsgCore) : p.acc 3 = p.noise.acc := rfl

end Sys2Proof.Machine
end

