-- ==== Sys2Proof/Laws/Ops.lean ====
section
/-! SUPPORT. What each shared operation of the decoder and the host can do, said once. -/

namespace Sys2Proof.Machine

/-! The host. -/

theorem effectiveRate_ne_zero (r : BitVec 32) : effectiveRate r ≠ 0#32 := by
  unfold effectiveRate; split
  · decide
  · assumption

@[simp] theorem effectiveRate_idem (r : BitVec 32) : effectiveRate (effectiveRate r) = effectiveRate r := by
  rw [effectiveRate, if_neg (effectiveRate_ne_zero r)]

/-- The legality of a rate is that of the rate it stands for. -/
theorem configLegal_effectiveRate (cfg : ConfigRegs) (r : BitVec 32) (len : Nat) :
    configLegal cfg (effectiveRate r) len = configLegal cfg r len := by
  simp [configLegal]

/-- What the host's due calls can do: they may reset the PSG core and may recompute the step constants for a
legal rate, they use up calls from the front, and they touch nothing else. -/
structure HostActed (s t : State) : Prop where
  cfg : t.cfg = s.cfg
  csd : t.csd = s.csd
  outRev : t.outRev = s.outRev
  stream : t.stream = s.stream
  psg : t.psg = s.psg ∨ t.psg = PsgCore.reset
  src : t.src = s.src ∨ ∃ r, configLegal s.cfg r s.stream.len = true ∧ t.src = s.src.forRate s.cfg r
  host : t.host <:+ s.host

theorem runDue_acted (calls : List HostCall) (s t : State) (h : runDue calls s = some t) (hc : calls <:+ s.host) :
    HostActed s t := by
  induction calls generalizing s with
  | nil =>
    simp only [runDue, Option.some.injEq] at h
    subst h
    exact ⟨rfl, rfl, rfl, rfl, .inl rfl, .inl rfl, List.nil_suffix⟩
  | cons c rest ih =>
    have hrest : rest <:+ s.host := (List.suffix_cons c rest).trans hc
    simp only [runDue] at h
    split at h
    · cases hop : c.op with
      | reset =>
        rw [hop] at h
        have := ih (hostReset s) h hrest
        exact ⟨this.cfg, this.csd, this.outRev, this.stream,
          .inr (this.psg.elim (fun e => e) (fun e => e)), this.src, this.host⟩
      | setRate r =>
        rw [hop] at h
        by_cases hl : configLegal s.cfg r s.stream.len = true
        · simp only [HostOp.apply, hostSetRate, hl, if_true] at h
          have := ih _ h hrest
          refine ⟨this.cfg, this.csd, this.outRev, this.stream, this.psg, .inr ?_, this.host⟩
          rcases this.src with e | ⟨r', hr', e⟩
          · exact ⟨r, hl, e⟩
          · exact ⟨r', hr', e⟩
        · simp [HostOp.apply, hostSetRate, hl] at h
    · simp only [Option.some.injEq] at h
      subst h
      exact ⟨rfl, rfl, rfl, rfl, .inl rfl, .inl rfl, hc⟩

/-- What a point where the host may act can do. -/
theorem hostTurn_acted {s t : State} (h : hostTurn s = some t) : HostActed s t :=
  runDue_acted s.host s t h (List.suffix_refl _)

@[simp] theorem hostTurn_of_nil {s : State} (h : s.host = []) : hostTurn s = some s := by
  unfold hostTurn
  rw [h, runDue]
  exact congrArg some (by rw [← h])

/-- What the due calls do depends on the list they are taken from, not on the one in the state. -/
theorem runDue_host (calls : List HostCall) (s : State) (pending : List HostCall) :
    runDue calls { s with host := pending } = runDue calls s := by
  induction calls generalizing s with
  | nil => rfl
  | cons d rest ih =>
    simp only [runDue]
    split
    · cases d.op with
      | reset => exact ih (hostReset s)
      | setRate r =>
        simp only [HostOp.apply, hostSetRate]
        by_cases hl : configLegal s.cfg r s.stream.len = true
        · simp only [hl, if_true]; exact ih { s with src := s.src.forRate s.cfg r }
        · simp [hl]
    · rfl

/-- A due `Reset()` at the front takes place, then the calls behind it have their turn. -/
theorem hostTurn_reset {s : State} {rest : List HostCall} (h : s.host = { delay := 0, op := .reset } :: rest) :
    hostTurn s = hostTurn { hostReset s with host := rest } := by
  simp only [hostTurn, h, runDue, if_true, HostOp.apply]
  exact (runDue_host rest (hostReset s) rest).symm

/-- The host's operations do not depend on the decoder's registers. -/
theorem runDue_csd (calls : List HostCall) (s : State) (c : CsdRegs) :
    runDue calls { s with csd := c } = (runDue calls s).map (fun t => { t with csd := c }) := by
  induction calls generalizing s with
  | nil => rfl
  | cons d rest ih =>
    simp only [runDue]
    split
    · cases d.op with
      | reset => exact ih (hostReset s)
      | setRate r =>
        simp only [HostOp.apply, hostSetRate]
        by_cases hl : configLegal s.cfg r s.stream.len = true
        · simp only [hl, if_true]; exact ih { s with src := s.src.forRate s.cfg r }
        · simp [hl]
    · rfl

theorem hostTurn_csd (s : State) (c : CsdRegs) :
    hostTurn { s with csd := c } = (hostTurn s).map (fun t => { t with csd := c }) := runDue_csd s.host s c

/-! One sample. -/

@[simp] theorem afterCoreOp_nil : afterCoreOp [] = [] := rfl

/-- What one round of `GenSamples` can change: `CTIME`, the PSG core, one item of `OUT`, the host's countdown. -/
structure Sampled (s t : State) : Prop where
  cfg : t.cfg = s.cfg
  src : t.src = { s.src with ctime := t.src.ctime }
  csd : t.csd = s.csd
  outRev : ∃ x, t.outRev = x :: s.outRev
  stream : t.stream = s.stream
  host : t.host = afterCoreOp s.host

theorem sampleAndEmit_sampled (s : State) : Sampled s (sampleAndEmit s) := by
  unfold sampleAndEmit sampleTicks
  split <;> exact ⟨rfl, rfl, rfl, ⟨_, rfl⟩, rfl, rfl⟩

theorem sampleAndEmit_csd (s : State) (c : CsdRegs) :
    sampleAndEmit { s with csd := c } = { sampleAndEmit s with csd := c } := by
  unfold sampleAndEmit sampleTicks
  by_cases h : s.cfg.q = 0#8 <;> simp [h, emit]

/-! A wait. -/

@[simp] theorem genSamples_zero (s : State) : genSamples 0 s = some s := rfl

/-- One round of `GenSamples`, in the terms of rule R61. -/
theorem genSamples_succ (n : Nat) (s : State) :
    genSamples (n + 1) s = (hostTurn s).bind (fun s' => genSamples n (sampleAndEmit s')) := by
  rw [genSamples]
  cases hostTurn s with
  | none => rfl
  | some s' => simp

/-- Two waits in a row are one of their sum. -/
theorem genSamples_add (a b : Nat) (s : State) : genSamples (a + b) s = (genSamples a s).bind (genSamples b) := by
  induction a generalizing s with
  | zero => simp
  | succ a ih =>
    rw [Nat.add_right_comm, genSamples_succ, genSamples_succ, Option.bind_assoc]
    exact congrArg _ (funext fun s' => ih _)

/-- Samples do not depend on the decoder's registers. -/
theorem genSamples_csd (n : Nat) (s : State) (c : CsdRegs) :
    genSamples n { s with csd := c } = (genSamples n s).map (fun t => { t with csd := c }) := by
  induction n generalizing s with
  | zero => rfl
  | succ n ih =>
    rw [genSamples_succ, genSamples_succ, hostTurn_csd]
    cases hostTurn s with
    | none => rfl
    | some s' => simp only [Option.map_some, Option.bind_some, sampleAndEmit_csd]; exact ih _

/-- With no host call pending a wait is its rounds and nothing else. -/
theorem genSamples_of_nil (n : Nat) (s : State) (h : s.host = []) : genSamples n s = some (sampleAndEmit^[n] s) := by
  induction n generalizing s with
  | zero => rfl
  | succ n ih =>
    rw [genSamples_succ, hostTurn_of_nil h, Option.bind_some, Function.iterate_succ_apply]
    exact ih _ (by rw [(sampleAndEmit_sampled s).host, h]; rfl)

/-- The induction over a wait: what the host's acts and a sample keep, a wait keeps. -/
theorem genSamples_induction {P : State → Prop} (hostKeeps : ∀ s t, P s → hostTurn s = some t → P t)
    (sampleKeeps : ∀ s, P s → P (sampleAndEmit s)) (n : Nat) (s t : State) (hs : P s) (h : genSamples n s = some t) :
    P t := by
  induction n generalizing s with
  | zero => cases h; exact hs
  | succ n ih =>
    rw [genSamples_succ] at h
    obtain ⟨s', hs', h⟩ := Option.bind_eq_some_iff.1 h
    exact ih _ (sampleKeeps _ (hostKeeps _ _ hs hs')) h

/-- What a wait can change, whatever the host does. -/
structure WaitRan (n : Nat) (s t : State) : Prop where
  cfg : t.cfg = s.cfg
  csd : t.csd = s.csd
  stream : t.stream = s.stream
  outRev : ∃ items, t.outRev = items ++ s.outRev ∧ items.length = n

theorem genSamples_ran (n : Nat) (s t : State) (h : genSamples n s = some t) : WaitRan n s t := by
  induction n generalizing s with
  | zero => cases h; exact ⟨rfl, rfl, rfl, [], rfl, rfl⟩
  | succ n ih =>
    rw [genSamples_succ] at h
    obtain ⟨s', hs', h⟩ := Option.bind_eq_some_iff.1 h
    have ha := hostTurn_acted hs'
    have hb := sampleAndEmit_sampled s'
    have hc := ih _ h
    obtain ⟨x, hx⟩ := hb.outRev
    obtain ⟨items, hi, hl⟩ := hc.outRev
    exact ⟨hc.cfg.trans (hb.cfg.trans ha.cfg), hc.csd.trans (hb.csd.trans ha.csd),
      hc.stream.trans (hb.stream.trans ha.stream), items ++ [x], by simp [hi, hx, ha.outRev], by simp [hl]⟩

end Sys2Proof.Machine
end

