-- ==== Sys2Proof/Laws/Tick.lean ====
section
/-! SUPPORT. The tick engine, said once: what each part changes, its bounds, and its behaviour at one chip tick per
invocation (rules R78 to R86). -/

namespace Sys2Proof.Machine

/-! The phase accumulator. -/

/-- Nothing is lost: the whole ticks and the fraction make up the sum. -/
theorem phase_split (bph : BitVec 24) (binc : BitVec 32) :
    2 ^ 24 * phaseTicks bph binc + (phaseRest bph binc).toNat = bph.toNat + binc.toNat := by
  simp only [phaseTicks, phaseRest, phaseSum, BitVec.toNat_ofNat]
  exact Nat.div_add_mod _ _

theorem phaseTicks_le (bph : BitVec 24) (binc : BitVec 32) : phaseTicks bph binc ≤ 256 := by
  have h1 := bph.isLt
  have h2 := binc.isLt
  simp only [phaseTicks, phaseSum]
  omega

/-- On the accurate path every invocation applies exactly one chip tick. -/
theorem phaseTicks_one (bph : BitVec 24) : phaseTicks bph (BitVec.ofNat 32 (2 ^ 24)) = 1 := by
  have h1 := bph.isLt
  simp only [phaseTicks, phaseSum, BitVec.toNat_ofNat]
  omega

/-! The parts of a tick, projected. -/

@[simp] theorem advanceTick_bph (fb : BitVec 16) (binc : BitVec 32) (p : PsgCore) :
    (advanceTick fb binc p).bph = phaseRest p.bph binc := rfl
@[simp] theorem advanceTick_noise (fb : BitVec 16) (binc : BitVec 32) (p : PsgCore) :
    (advanceTick fb binc p).noise = tickNoise fb p.tone2.tp (phaseTicks p.bph binc) p.noise := rfl
@[simp] theorem advanceTick_tone (fb : BitVec 16) (binc : BitVec 32) (p : PsgCore) (i : Fin 3) :
    (advanceTick fb binc p).tone i = tickTone (phaseTicks p.bph binc) (p.tone i) := by
  fin_cases i <;> rfl
@[simp] theorem advanceTick_tone0 (fb : BitVec 16) (binc : BitVec 32) (p : PsgCore) :
    (advanceTick fb binc p).tone0 = tickTone (phaseTicks p.bph binc) p.tone0 := rfl
@[simp] theorem advanceTick_tone1 (fb : BitVec 16) (binc : BitVec 32) (p : PsgCore) :
    (advanceTick fb binc p).tone1 = tickTone (phaseTicks p.bph binc) p.tone1 := rfl
@[simp] theorem advanceTick_tone2 (fb : BitVec 16) (binc : BitVec 32) (p : PsgCore) :
    (advanceTick fb binc p).tone2 = tickTone (phaseTicks p.bph binc) p.tone2 := rfl
@[simp] theorem advanceTick_latch (fb : BitVec 16) (binc : BitVec 32) (p : PsgCore) :
    (advanceTick fb binc p).latch = p.latch := rfl
@[simp] theorem advanceTick_stereo (fb : BitVec 16) (binc : BitVec 32) (p : PsgCore) :
    (advanceTick fb binc p).stereo = p.stereo := rfl

/-! The crossings, as numbers. -/

theorem toneCrossed_iff (tc : BitVec 11) : toneCrossed tc = decide (1024 ≤ tc.toNat) := by
  rw [toneCrossed, BitVec.getLsbD, Nat.testBit_eq_decide_div_mod_eq]
  have := tc.isLt
  by_cases h : 1024 ≤ tc.toNat
  · simp only [h, decide_true, decide_eq_true_eq]; omega
  · simp only [h, decide_false, decide_eq_false_iff_not]; omega

theorem noiseCrossed_iff (nc : BitVec 9) : noiseCrossed nc = decide (256 ≤ nc.toNat) := by
  rw [noiseCrossed, BitVec.getLsbD, Nat.testBit_eq_decide_div_mod_eq]
  have := nc.isLt
  by_cases h : 256 ≤ nc.toNat
  · simp only [h, decide_true, decide_eq_true_eq]; omega
  · simp only [h, decide_false, decide_eq_false_iff_not]; omega

theorem toneCount (tc : BitVec 11) (n : Nat) : (tc + BitVec.ofNat 11 n).toNat = (tc.toNat + n) % 2048 := by
  simp only [BitVec.toNat_add, BitVec.toNat_ofNat]
  omega

theorem noiseCount (nc : BitVec 9) (n : Nat) : (nc + BitVec.ofNat 9 n).toNat = (nc.toNat + n) % 512 := by
  simp only [BitVec.toNat_add, BitVec.toNat_ofNat]
  omega

/-! A tone channel. -/

@[simp] theorem toneStep_tp (n : Nat) (t : Tone) : (toneStep n t).tp = t.tp := by
  unfold toneStep; dsimp only; split <;> rfl
@[simp] theorem toneStep_att (n : Nat) (t : Tone) : (toneStep n t).att = t.att := by
  unfold toneStep; dsimp only; split <;> rfl
@[simp] theorem toneStep_mute (n : Nat) (t : Tone) : (toneStep n t).mute = t.mute := by
  unfold toneStep; dsimp only; split <;> rfl
@[simp] theorem toneStep_acc (n : Nat) (t : Tone) : (toneStep n t).acc = t.acc := by
  unfold toneStep; dsimp only; split <;> rfl
@[simp] theorem tickTone_tp (n : Nat) (t : Tone) : (tickTone n t).tp = t.tp := toneStep_tp n t
@[simp] theorem tickTone_att (n : Nat) (t : Tone) : (tickTone n t).att = t.att := toneStep_att n t
@[simp] theorem tickTone_mute (n : Nat) (t : Tone) : (tickTone n t).mute = t.mute := toneStep_mute n t
@[simp] theorem tickTone_tc (n : Nat) (t : Tone) : (tickTone n t).tc = (toneStep n t).tc := rfl
@[simp] theorem tickTone_edge (n : Nat) (t : Tone) : (tickTone n t).edge = (toneStep n t).edge := rfl
theorem tickTone_acc (n : Nat) (t : Tone) :
    (tickTone n t).acc = smooth ((toneStep n t).edge && !t.mute) t.att t.acc := by
  simp only [tickTone, toneAcc, toneStep_mute, toneStep_att, toneStep_acc]

/-- No crossing: the counter moves and the edge stays. -/
theorem toneStep_below (n : Nat) (t : Tone) (h : (t.tc.toNat + n) % 2048 < 1024) :
    (toneStep n t).tc.toNat = (t.tc.toNat + n) % 2048 ∧ (toneStep n t).edge = t.edge := by
  have hc : toneCrossed (t.tc + BitVec.ofNat 11 n) = false := by
    rw [toneCrossed_iff, toneCount]; exact decide_eq_false (by omega)
  simp only [toneStep, hc]
  exact ⟨toneCount _ _, rfl⟩

/-- A crossing with a proper period: toggle and subtract. -/
theorem toneStep_toggle (n : Nat) (t : Tone) (h : 1024 ≤ (t.tc.toNat + n) % 2048) (hp : 1 < t.tp.toNat) :
    (toneStep n t).tc.toNat = (t.tc.toNat + n) % 2048 - t.tp.toNat ∧ (toneStep n t).edge = !t.edge := by
  have hc : toneCrossed (t.tc + BitVec.ofNat 11 n) = true := by
    rw [toneCrossed_iff, toneCount]; exact decide_eq_true h
  have ht : toneToggles t.tp = true := decide_eq_true hp
  have h1 := t.tp.isLt
  simp only [toneStep, hc, if_true, ht, edgeAfterCrossing, and_true]
  rw [BitVec.toNat_sub, toneCount, BitVec.toNat_setWidth]
  omega

/-- A crossing with a degenerate period: the edge is forced high, the counter only moves. -/
theorem toneStep_degenerate (n : Nat) (t : Tone) (h : 1024 ≤ (t.tc.toNat + n) % 2048) (hp : t.tp.toNat ≤ 1) :
    (toneStep n t).tc.toNat = (t.tc.toNat + n) % 2048 ∧ (toneStep n t).edge = true := by
  have hc : toneCrossed (t.tc + BitVec.ofNat 11 n) = true := by
    rw [toneCrossed_iff, toneCount]; exact decide_eq_true h
  have ht : toneToggles t.tp = false := decide_eq_false (by omega)
  simp only [toneStep, hc, if_true, ht, edgeAfterCrossing]
  exact ⟨toneCount _ _, rfl⟩

/-! The noise channel. -/

@[simp] theorem noiseStep_np (fb : BitVec 16) (tp2 : BitVec 10) (n : Nat) (z : Noise) :
    (noiseStep fb tp2 n z).np = z.np := by unfold noiseStep; dsimp only; split <;> rfl
@[simp] theorem noiseStep_nmode (fb : BitVec 16) (tp2 : BitVec 10) (n : Nat) (z : Noise) :
    (noiseStep fb tp2 n z).nmode = z.nmode := by unfold noiseStep; dsimp only; split <;> rfl
@[simp] theorem noiseStep_nref (fb : BitVec 16) (tp2 : BitVec 10) (n : Nat) (z : Noise) :
    (noiseStep fb tp2 n z).nref = z.nref := by unfold noiseStep; dsimp only; split <;> rfl
@[simp] theorem noiseStep_att (fb : BitVec 16) (tp2 : BitVec 10) (n : Nat) (z : Noise) :
    (noiseStep fb tp2 n z).att = z.att := by unfold noiseStep; dsimp only; split <;> rfl
@[simp] theorem noiseStep_acc (fb : BitVec 16) (tp2 : BitVec 10) (n : Nat) (z : Noise) :
    (noiseStep fb tp2 n z).acc = z.acc := by unfold noiseStep; dsimp only; split <;> rfl
@[simp] theorem tickNoise_np (fb : BitVec 16) (tp2 : BitVec 10) (n : Nat) (z : Noise) :
    (tickNoise fb tp2 n z).np = z.np := noiseStep_np fb tp2 n z
@[simp] theorem tickNoise_nmode (fb : BitVec 16) (tp2 : BitVec 10) (n : Nat) (z : Noise) :
    (tickNoise fb tp2 n z).nmode = z.nmode := noiseStep_nmode fb tp2 n z
@[simp] theorem tickNoise_nref (fb : BitVec 16) (tp2 : BitVec 10) (n : Nat) (z : Noise) :
    (tickNoise fb tp2 n z).nref = z.nref := noiseStep_nref fb tp2 n z
@[simp] theorem tickNoise_att (fb : BitVec 16) (tp2 : BitVec 10) (n : Nat) (z : Noise) :
    (tickNoise fb tp2 n z).att = z.att := noiseStep_att fb tp2 n z
@[simp] theorem tickNoise_seed (fb : BitVec 16) (tp2 : BitVec 10) (n : Nat) (z : Noise) :
    (tickNoise fb tp2 n z).seed = (noiseStep fb tp2 n z).seed := rfl
@[simp] theorem tickNoise_nc (fb : BitVec 16) (tp2 : BitVec 10) (n : Nat) (z : Noise) :
    (tickNoise fb tp2 n z).nc = (noiseStep fb tp2 n z).nc := rfl
theorem tickNoise_acc (fb : BitVec 16) (tp2 : BitVec 10) (n : Nat) (z : Noise) :
    (tickNoise fb tp2 n z).acc = smooth ((noiseStep fb tp2 n z).seed.getLsbD 0) z.att z.acc := by
  simp only [tickNoise, noiseAcc, noiseStep_att, noiseStep_acc]

/-- No crossing: the counter moves and the seed stays. -/
theorem noiseStep_below (fb : BitVec 16) (tp2 : BitVec 10) (n : Nat) (z : Noise) (h : (z.nc.toNat + n) % 512 < 256) :
    (noiseStep fb tp2 n z).nc.toNat = (z.nc.toNat + n) % 512 ∧ (noiseStep fb tp2 n z).seed = z.seed := by
  have hc : noiseCrossed (z.nc + BitVec.ofNat 9 n) = false := by
    rw [noiseCrossed_iff, noiseCount]; exact decide_eq_false (by omega)
  simp only [noiseStep, hc]
  exact ⟨noiseCount _ _, rfl⟩

/-- A crossing: one shift, and the period is subtracted. -/
theorem noiseStep_crossed (fb : BitVec 16) (tp2 : BitVec 10) (n : Nat) (z : Noise)
    (h : 256 ≤ (z.nc.toNat + n) % 512) :
    (noiseStep fb tp2 n z).nc = z.nc + BitVec.ofNat 9 n - noiseSubtrahend tp2 z ∧
      (noiseStep fb tp2 n z).seed = shiftSeed z.nmode fb z.seed := by
  have hc : noiseCrossed (z.nc + BitVec.ofNat 9 n) = true := by
    rw [noiseCrossed_iff, noiseCount]; exact decide_eq_true h
  simp only [noiseStep, hc, if_true, and_self]

/-- The seed after a step is the old one or one shift of it. -/
theorem noiseStep_seed_cases (fb : BitVec 16) (tp2 : BitVec 10) (n : Nat) (z : Noise) :
    (noiseStep fb tp2 n z).seed = z.seed ∨ (noiseStep fb tp2 n z).seed = shiftSeed z.nmode fb z.seed := by
  by_cases h : (z.nc.toNat + n) % 512 < 256
  · exact .inl (noiseStep_below fb tp2 n z h).2
  · exact .inr (noiseStep_crossed fb tp2 n z (by omega)).2

/-- The shift as a number: half the seed, the feedback bit at bit 15. -/
theorem shiftSeed_toNat (mode : NoiseMode) (fb seed : BitVec 16) :
    (shiftSeed mode fb seed).toNat = seed.toNat / 2 + (if feedbackBit mode fb seed = true then 32768 else 0) := by
  unfold shiftSeed
  have h := seed.isLt
  cases feedbackBit mode fb seed
  · simp [Nat.shiftRight_eq_div_pow]
  · have hd : seed.toNat / 2 < 2 ^ 15 := by omega
    have : (seed.toNat / 2) ||| 32768 = seed.toNat / 2 + 32768 := by
      have := Nat.two_pow_add_eq_or_of_lt hd 1
      simp only [Nat.mul_one] at this
      rw [Nat.or_comm, Nat.add_comm]; exact this.symm
    simpa [Nat.shiftRight_eq_div_pow] using this

/-- Rule R7: the exclusive or of the 16 bits is 1 just where the number of set bits is odd. -/
theorem parity16_eq_count (x : BitVec 16) :
    parity16 x = decide ((List.range 16).countP (fun b => x.getLsbD b) % 2 = 1) := by
  have h : ∀ (l : List Nat) (p : Bool), l.foldl (fun p b => p ^^ x.getLsbD b) p =
      (p ^^ decide (l.countP (fun b => x.getLsbD b) % 2 = 1)) := by
    intro l
    induction l with
    | nil => simp
    | cons b l ih =>
      intro p
      rw [List.foldl_cons, ih, List.countP_cons]
      rcases Nat.mod_two_eq_zero_or_one (l.countP fun b => x.getLsbD b) with hl | hl <;>
        cases p <;> cases hb : x.getLsbD b <;> simp [Nat.add_mod, hl]
  rw [parity16, h, Bool.false_xor]

/-- The parity of a seed whose only bit is bit 0 is the tap at bit 0. -/
theorem parity16_one (fb : BitVec 16) : parity16 (1#16 &&& fb) = fb.getLsbD 0 := by
  have h : 1#16 &&& fb = BitVec.setWidth 16 (BitVec.ofBool (fb.getLsbD 0)) := by
    ext i hi
    rcases i with _ | i
    · simp
    · simp [BitVec.getElem_one]
  rw [h]
  cases fb.getLsbD 0 <;> decide

/-- With bit 0 of the tap mask set, no shift makes the seed 0 (rule R31). -/
theorem shiftSeed_ne_zero (mode : NoiseMode) (fb seed : BitVec 16) (hfb : fb.getLsbD 0 = true) (h : seed ≠ 0#16) :
    shiftSeed mode fb seed ≠ 0#16 := by
  intro h0
  have hn := shiftSeed_toNat mode fb seed
  rw [h0] at hn
  have hne : seed.toNat ≠ 0 := fun e => h (BitVec.eq_of_toNat_eq (by simpa using e))
  have h1 : seed = 1#16 := BitVec.eq_of_toNat_eq (by
    have : (0#16).toNat = 0 := rfl
    have : (1#16).toNat = 1 := rfl
    split at hn <;> omega)
  subst h1
  have hbit : feedbackBit mode fb 1#16 = true := by
    cases mode
    · rfl
    · exact (parity16_one fb).trans hfb
  rw [if_pos hbit] at hn
  simp at hn

/-- A periodic shift moves every bit one place down, bit 0 to bit 15 (rule R80). -/
theorem shiftSeed_periodic_bit (fb seed : BitVec 16) (i : Nat) (hi : i < 16) :
    (shiftSeed .periodic fb seed).getLsbD i = seed.getLsbD ((i + 1) % 16) := by
  rw [BitVec.getLsbD, BitVec.getLsbD, shiftSeed_toNat]
  have h := seed.isLt
  by_cases h15 : i = 15
  · subst h15
    show (seed.toNat / 2 + if seed.getLsbD 0 = true then 32768 else 0).testBit 15 = seed.toNat.testBit 0
    rw [BitVec.getLsbD]
    cases seed.toNat.testBit 0 with
    | true => simp only [if_true]; rw [Nat.testBit_eq_decide_div_mod_eq, decide_eq_true_eq]; omega
    | false =>
      simp only [Bool.false_eq_true, if_false]
      rw [Nat.testBit_eq_decide_div_mod_eq, decide_eq_false_iff_not]; omega
  · have hlt : i < 15 := by omega
    rw [Nat.mod_eq_of_lt (by omega : i + 1 < 16)]
    by_cases hf : feedbackBit .periodic fb seed = true
    · rw [if_pos hf, Nat.add_comm, show (32768 : Nat) = 2 ^ 15 from rfl, Nat.testBit_two_pow_add_gt hlt,
        Nat.testBit_div_two]
    · rw [if_neg hf, Nat.add_zero, Nat.testBit_div_two]

/-! The accumulators. -/

theorem vol_le (att : BitVec 4) : (vol att).toNat ≤ 255 := by
  revert att; decide

theorem vol_silent : vol 15#4 = 0#16 := rfl

/-- One accumulator update, as a number. -/
theorem smooth_toNat (on : Bool) (att : BitVec 4) (acc : BitVec 16) :
    (smooth on att acc).toNat = (acc.toNat + (if on = true then (vol att).toNat else 0)) % 65536 / 2 := by
  have h := acc.isLt
  cases on
  · simp only [smooth, BitVec.toNat_ushiftRight, Nat.shiftRight_eq_div_pow]
    simp only [Bool.false_eq_true, if_false]
    omega
  · simp [smooth, Nat.shiftRight_eq_div_pow]

/-- Rule R31: an accumulator that is at most 254 stays so. -/
theorem smooth_le (on : Bool) (att : BitVec 4) (acc : BitVec 16) (h : acc.toNat ≤ 254) :
    (smooth on att acc).toNat ≤ 254 := by
  rw [smooth_toNat]
  have := vol_le att
  split <;> omega

/-- An accumulator at 0 stays at 0 while its channel's attenuation is 15. -/
theorem smooth_silent (on : Bool) : smooth on 15#4 0#16 = 0#16 := by
  cases on <;> rfl

end Sys2Proof.Machine
end

