-- ==== Sys2Proof/Laws/Waits.lean ====
section
/-! SUPPORT. The sample primitive and the waits, said once: a wait command's next state, a sample as a number of
ticks, the accurate loop with its bounds (rule R94), and the registers that ticks leave alone. -/

namespace Sys2Proof.Machine

/-- A wait command has a next state only from the samples it generates. -/
theorem waitCommand_next {n len : Nat} {s t : State} (h : waitCommand n len s = .next t) :
    ∃ u, genSamples n s = some u ∧ t = retire len u := by
  unfold waitCommand at h
  split at h
  · rename_i u hu; cases h; exact ⟨u, hu, rfl⟩
  · cases h

/-- The samples generated, the wait command answers the state after them, retired. -/
theorem waitCommand_of_some {n len : Nat} {s u : State} (h : genSamples n s = some u) :
    waitCommand n len s = .next (retire len u) := by
  simp [waitCommand, h]

/-- Whatever the host does, a wait that completes is a wait of its count. -/
theorem waited_of {n len : Nat} {s t : State} (h : genSamples n s = some t) : waited n len s (retire len t) := by
  have hr := genSamples_ran n s t h
  obtain ⟨items, hi, hl⟩ := hr.outRev
  exact ⟨⟨items.reverse, by simp [State.out, hi], by simpa using hl⟩, by simp [hr.csd], hr.cfg, hr.stream⟩

/-! The accurate loop. -/

/-- One round of the loop, in the terms of rule R90. -/
theorem accurateLoop_succ (fb : BitVec 16) (x : RateRegs) (fuel : Nat) (ctime : BitVec 32) (p : PsgCore) :
    accurateLoop fb x (fuel + 1) ctime p =
      if ctime.toNat < x.rstep.toNat then accurateLoop fb x fuel (ctime + x.cstep) (advanceTick fb x.binc p)
      else (ctime, p) := by
  rw [accurateLoop, evaluated_eq, PsgCore.evaluated_eq]

/-- However much fuel it has, the loop does a number of ticks to the PSG core. -/
theorem accurateLoop_ticks (fb : BitVec 16) (x : RateRegs) (fuel : Nat) (ctime : BitVec 32) (p : PsgCore) :
    ∃ k, (accurateLoop fb x fuel ctime p).2 = (advanceTick fb x.binc)^[k] p := by
  induction fuel generalizing ctime p with
  | zero => exact ⟨0, rfl⟩
  | succ fuel ih =>
    rw [accurateLoop_succ]
    split
    · obtain ⟨k, hk⟩ := ih (ctime + x.cstep) (advanceTick fb x.binc p)
      exact ⟨k + 1, hk⟩
    · exact ⟨0, rfl⟩

/-- Rule R94: with the bounds on the step constants no addition wraps and the loop ends by its own test: `k` rounds,
just as many as bring chip time to the output time. -/
theorem accurateLoop_spec (fb : BitVec 16) (x : RateRegs) (hr : x.rstep.toNat ≤ 2 ^ 31) (hc : 0 < x.cstep.toNat)
    (hc' : x.cstep.toNat ≤ 2 ^ 31) (fuel : Nat) (ctime : BitVec 32) (p : PsgCore)
    (hf : x.rstep.toNat ≤ ctime.toNat + fuel) : ∃ k,
    (accurateLoop fb x fuel ctime p).2 = (advanceTick fb x.binc)^[k] p ∧
    (accurateLoop fb x fuel ctime p).1.toNat = ctime.toNat + k * x.cstep.toNat ∧
    x.rstep.toNat ≤ (accurateLoop fb x fuel ctime p).1.toNat ∧
    (∀ j, j < k → ctime.toNat + j * x.cstep.toNat < x.rstep.toNat) := by
  induction fuel generalizing ctime p with
  | zero => exact ⟨0, rfl, by simp [accurateLoop], by simpa [accurateLoop] using hf, by simp⟩
  | succ fuel ih =>
    rw [accurateLoop_succ]
    by_cases hlt : ctime.toNat < x.rstep.toNat
    · have hadd : (ctime + x.cstep).toNat = ctime.toNat + x.cstep.toNat := by
        rw [BitVec.toNat_add, Nat.mod_eq_of_lt (by omega)]
      obtain ⟨k, h1, h2, h3, h4⟩ := ih (ctime + x.cstep) (advanceTick fb x.binc p) (by omega)
      rw [if_pos hlt]
      refine ⟨k + 1, h1, by rw [h2, hadd, Nat.add_mul]; omega, h3, fun j hj => ?_⟩
      cases j with
      | zero => simpa using hlt
      | succ j => have := h4 j (by omega); rw [hadd] at this; rw [Nat.add_mul]; omega
    · rw [if_neg hlt]
      exact ⟨0, rfl, by simp, by simpa using hlt, by simp⟩

/-- Rule R94: `RSTEP ≤ 2^31`. -/
theorem rstepOf_le (rate : BitVec 32) (q : BitVec 8) : (rstepOf rate q).toNat ≤ 2 ^ 31 := by
  unfold rstepOf
  split
  · decide
  · have h : 2 ^ 31 / rate.toNat ≤ 2 ^ 31 := Nat.div_le_self _ _
    rw [BitVec.toNat_ofNat, Nat.mod_eq_of_lt (by omega)]; exact h

/-- Rule R94: `CSTEP ≤ 2^31`. -/
theorem cstepOf_le (clk : BitVec 30) (q : BitVec 8) : (cstepOf clk q).toNat ≤ 2 ^ 31 := by
  unfold cstepOf
  split
  · decide
  · have h : 2 ^ 31 / (clk.toNat / 16) ≤ 2 ^ 31 := Nat.div_le_self _ _
    rw [BitVec.toNat_ofNat, Nat.mod_eq_of_lt (by omega)]; exact h

/-- Rule R94: `32 ≤ CSTEP` on the accurate path. -/
theorem cstepOf_ge (clk : BitVec 30) (q : BitVec 8) (hq : q ≠ 0#8) (hc : 16 ≤ clk.toNat) :
    32 ≤ (cstepOf clk q).toNat := by
  unfold cstepOf
  rw [if_neg hq]
  have h1 := clk.isLt
  have h2 : 0 < clk.toNat / 16 := by omega
  have h3 : 2 ^ 31 / (clk.toNat / 16) ≤ 2 ^ 31 := Nat.div_le_self _ _
  rw [BitVec.toNat_ofNat, Nat.mod_eq_of_lt (by omega), Nat.le_div_iff_mul_le h2]; omega

/-- A legal configuration of the accurate path has `CLK ≥ 16` (rule R6). -/
theorem configLegal_clk {cfg : ConfigRegs} {r : BitVec 32} {len : Nat} (h : configLegal cfg r len = true)
    (hq : cfg.q ≠ 0#8) : 16 ≤ cfg.clk.toNat := by
  simp only [configLegal, Bool.and_eq_true, Bool.or_eq_true, decide_eq_true_eq] at h
  exact h.1.2.resolve_left hq

/-- A legal configuration has `LEN < 2^32` (rule R6). -/
theorem configLegal_len {s : State} (h : s.configLegal = true) : s.stream.len < 2 ^ 32 := by
  simp only [State.configLegal, configLegal, Bool.and_eq_true, decide_eq_true_eq] at h
  exact h.2

/-! A sample. -/

@[simp] theorem sampleTicks_outRev (s : State) : (sampleTicks s).outRev = s.outRev := by
  unfold sampleTicks; split <;> rfl

/-- A sample, on either path, does a number of ticks to the PSG core. -/
theorem sampleAndEmit_ticks (s : State) : ∃ k, (sampleAndEmit s).psg = (advanceTick s.cfg.fb s.src.binc)^[k] s.psg := by
  unfold sampleAndEmit sampleTicks
  split
  · exact ⟨1, rfl⟩
  · exact accurateLoop_ticks s.cfg.fb s.src s.src.rstep.toNat s.src.ctime s.psg

/-- A sample emits the mix of the PSG core it leaves. -/
theorem sampleAndEmit_outRev (s : State) :
    (sampleAndEmit s).outRev = mix s.cfg.outMode (sampleAndEmit s).psg :: s.outRev := by
  simp [sampleAndEmit]

/-- What every tick keeps of the PSG core, a sample keeps. -/
theorem sampleAndEmit_keeps {P : PsgCore → Prop} (tick : ∀ fb binc p, P p → P (advanceTick fb binc p)) (s : State)
    (h : P s.psg) : P (sampleAndEmit s).psg := by
  obtain ⟨k, hk⟩ := sampleAndEmit_ticks s
  rw [hk]
  clear hk
  induction k with
  | zero => exact h
  | succ k ih => rw [Function.iterate_succ_apply']; exact tick _ _ _ ih

/-! The programmed registers. -/

theorem samePsgSettings_refl (p : PsgCore) : samePsgSettings p p :=
  ⟨⟨rfl, rfl, rfl⟩, ⟨rfl, rfl, rfl⟩, ⟨rfl, rfl, rfl⟩, rfl, rfl, rfl, rfl, rfl, rfl⟩

theorem samePsgSettings_trans {p q r : PsgCore} (h1 : samePsgSettings p q) (h2 : samePsgSettings q r) :
    samePsgSettings p r := by
  unfold samePsgSettings sameToneSettings at *
  simp_all

/-- A tick leaves the programmed registers alone. -/
theorem advanceTick_settings (fb : BitVec 16) (binc : BitVec 32) (p : PsgCore) :
    samePsgSettings p (advanceTick fb binc p) := by
  unfold samePsgSettings sameToneSettings; simp

/-- A sample leaves the programmed registers alone. -/
theorem sampleAndEmit_settings (s : State) : samePsgSettings s.psg (sampleAndEmit s).psg :=
  sampleAndEmit_keeps (P := samePsgSettings s.psg)
    (fun fb binc p h => samePsgSettings_trans h (advanceTick_settings fb binc p)) s (samePsgSettings_refl _)

/-- The volume table as the list of rule R76. -/
theorem vol_toNat (att : BitVec 4) : (vol att).toNat = volList.getD att.toNat 0 := by revert att; decide

end Sys2Proof.Machine
end

