-- ==== Sys2Proof/Laws/Step.lean ====
section
/-! SUPPORT. What one step can do, said once: the cases of a step, of the execution of a fetched command, and what
a write byte can change. Every invariant is derived from these. -/

namespace Sys2Proof.Machine

/-- What a write byte can change of a tone channel: its period and its attenuation. -/
def ToneWritten (t u : Tone) : Prop := u.tc = t.tc ∧ u.edge = t.edge ∧ u.mute = t.mute ∧ u.acc = t.acc

/-- What a write byte can change of the noise channel: its attenuation, or by the noise control. -/
def NoiseWritten (z z' : Noise) : Prop := (∃ d, z' = { z with att := d }) ∨ ∃ c, z' = z.control c

/-- What a write byte can change of the PSG core. -/
structure PsgWritten (p q : PsgCore) : Prop where
  tone : ∀ i, ToneWritten (p.tone i) (q.tone i)
  noise : NoiseWritten p.noise q.noise
  stereo : q.stereo = p.stereo
  bph : q.bph = p.bph

theorem NoiseWritten.refl (z : Noise) : NoiseWritten z z := .inl ⟨z.att, rfl⟩

theorem writeToneLow_written (a : BitVec 3) (i : Fin 3) (d : BitVec 4) (p : PsgCore) :
    PsgWritten p (writeToneLow i d (setLatch a p)) := by
  refine ⟨fun j => ?_, ?_, ?_, ?_⟩
  · fin_cases i <;> fin_cases j <;> exact ⟨rfl, rfl, rfl, rfl⟩
  all_goals fin_cases i <;> first | exact NoiseWritten.refl _ | rfl

theorem writeVolume_written (a : BitVec 3) (c : Fin 4) (d : BitVec 4) (p : PsgCore) :
    PsgWritten p (writeVolume c d (setLatch a p)) := by
  refine ⟨fun j => ?_, ?_, ?_, ?_⟩
  · fin_cases c <;> fin_cases j <;> exact ⟨rfl, rfl, rfl, rfl⟩
  · fin_cases c
    · exact NoiseWritten.refl _
    · exact NoiseWritten.refl _
    · exact NoiseWritten.refl _
    · exact .inl ⟨d, rfl⟩
  all_goals fin_cases c <;> rfl

theorem noiseCtl_written (a : BitVec 3) (c : BitVec 3) (p : PsgCore) : PsgWritten p (noiseCtl c (setLatch a p)) := by
  refine ⟨fun j => ?_, .inr ⟨c, rfl⟩, rfl, rfl⟩
  fin_cases j <;> exact ⟨rfl, rfl, rfl, rfl⟩

theorem data_written (e : BitVec 7) (p : PsgCore) : PsgWritten p (data e p) := by
  have hp : setLatch p.latch p = p := rfl
  unfold data
  split
  · rename_i i _
    refine ⟨fun j => ?_, ?_, ?_, ?_⟩
    · fin_cases i <;> fin_cases j <;> exact ⟨rfl, rfl, rfl, rfl⟩
    all_goals fin_cases i <;> first | exact NoiseWritten.refl _ | rfl
  · rw [← hp]; exact writeVolume_written p.latch _ _ _
  · rw [← hp]; exact noiseCtl_written p.latch _ _

/-- What `Write(v)` can change, whatever its byte. -/
theorem psgWrite_written (v : Byte) (p : PsgCore) : PsgWritten p (psgWrite v p) := by
  unfold psgWrite
  split
  · split
    · exact writeToneLow_written _ _ _ _
    · exact writeVolume_written _ _ _ _
    · exact writeToneLow_written _ _ _ _
    · exact writeVolume_written _ _ _ _
    · exact writeToneLow_written _ _ _ _
    · exact writeVolume_written _ _ _ _
    · exact noiseCtl_written _ _ _
    · exact writeVolume_written _ _ _ _
  · exact data_written _ _

/-- The execution of a fetched command: a write, a wait or END. -/
theorem exec_stream_cases {i : Instr} {s t : State} (hi : i.level = .stream) (h : exec i s = .next t) :
    (∃ dd, i = .wr dd ∧ t = writeCommand (psgWrite dd) s) ∨
    (∃ n len u, (i = .wait n ∧ len = 3 ∨ i = .wait735 ∧ n = 735 ∧ len = 1 ∨ i = .waits n ∧ len = 1) ∧
      genSamples n s = some u ∧ t = retire len u) ∨
    (i = .endOfStream ∧ t = haltRun (retire 1 s)) := by
  cases i with
  | wr dd => cases h; exact .inl ⟨dd, rfl, rfl⟩
  | wait n => obtain ⟨u, hu⟩ := waitCommand_next h; exact .inr (.inl ⟨n, 3, u, .inl ⟨rfl, rfl⟩, hu⟩)
  | wait735 => obtain ⟨u, hu⟩ := waitCommand_next h; exact .inr (.inl ⟨735, 1, u, .inr (.inl ⟨rfl, rfl, rfl⟩), hu⟩)
  | waits n => obtain ⟨u, hu⟩ := waitCommand_next h; exact .inr (.inl ⟨n, 1, u, .inr (.inr ⟨rfl, rfl⟩), hu⟩)
  | endOfStream => cases h; exact .inr (.inr ⟨rfl, rfl⟩)
  | _ => cases hi

/-- What the decoder accepts is a stream command. -/
theorem decode_level {bs : List Byte} {i : Instr} {rest : List Byte} (h : decode bs = .ok (i, rest)) :
    i.level = .stream := by
  rcases decode_ok_cases h with ⟨_, rfl, -⟩ | ⟨_, _, rfl, -⟩ | ⟨rfl, -⟩ | ⟨rfl, -⟩ | ⟨_, -, rfl, -⟩ <;> rfl

/-- A step of a running, legal machine whose host calls are in order. -/
theorem step_run {s s' : State} (hr : s.csd.status = .run) (hl : s.configLegal = true) (hh : hostTurn s = some s') :
    step s = stepCommand s' := by
  simp [step, hr, hl, hh]

/-- The one inversion of a step: it has a next state only from a running, legal machine, and that state is the
entry of a fault or what the fetched command gives. -/
theorem step_cases {s t : State} (h : step s = .next t) :
    s.csd.status = .run ∧ s.configLegal = true ∧ ∃ s', hostTurn s = some s' ∧
      ((∃ e, decode s'.fetchBytes = .error e ∧ t = raiseDecodeError e s') ∨
        ∃ i rest, decode s'.fetchBytes = .ok (i, rest) ∧ exec i s' = .next t) := by
  unfold step at h
  split at h
  · cases h
  · cases h
  · rename_i hr
    split at h
    · rename_i hl
      split at h
      · rename_i s' hh
        refine ⟨hr, hl, s', hh, ?_⟩
        unfold stepCommand State.fetch at h
        split at h
        · rename_i i rest hd; exact .inr ⟨i, rest, hd, h⟩
        · rename_i e hd; cases h; exact .inl ⟨e, hd, rfl⟩
      · cases h
    · cases h

/-- A fetched command lies inside the stream, whole. -/
theorem fetched_inside {s : State} {i : Instr} {rest : List Byte} (h : decode s.fetchBytes = .ok (i, rest)) :
    (∃ dd, i = .wr dd ∧ s.csd.cur.toNat + 2 ≤ s.stream.len) ∨
    (∃ n, i = .wait n ∧ s.csd.cur.toNat + 3 ≤ s.stream.len) ∨
    (((∃ n, i = .waits n) ∨ i = .wait735 ∨ i = .endOfStream) ∧ s.csd.cur.toNat + 1 ≤ s.stream.len) := by
  have hlen := window_length s.stream s.csd.cur.toNat maxCommandLength
  change s.fetchBytes.length = _ at hlen
  rcases decode_ok_cases h with ⟨dd, rfl, hb⟩ | ⟨lo, hi, rfl, hb⟩ | ⟨rfl, hb⟩ | ⟨rfl, hb⟩ | ⟨op, -, rfl, hb⟩ <;>
    rw [hb] at hlen <;> simp only [List.length_cons, maxCommandLength] at hlen
  · exact .inl ⟨dd, rfl, by omega⟩
  · exact .inr (.inl ⟨_, rfl, by omega⟩)
  · exact .inr (.inr ⟨.inr (.inl rfl), by omega⟩)
  · exact .inr (.inr ⟨.inr (.inr rfl), by omega⟩)
  · exact .inr (.inr ⟨.inl ⟨_, rfl⟩, by omega⟩)

/-- A cursor that stays inside a stream of legal length does not wrap (rule R26). -/
theorem cursor_add {cur : BitVec 32} {k len : Nat} (h : cur.toNat + k ≤ len) (hl : len < 2 ^ 32) :
    (cur + BitVec.ofNat 32 k).toNat = cur.toNat + k := by
  rw [BitVec.toNat_add, BitVec.toNat_ofNat]; omega

/-- A refused fetch is one of the faults, at the cursor. -/
@[simp] theorem raiseDecodeError_csd (e : DecodeError) (s : State) :
    (raiseDecodeError e s).csd.status = .fault ∧ (raiseDecodeError e s).csd.cur = s.csd.cur := by
  cases e <;> exact ⟨rfl, rfl⟩

theorem raiseDecodeError_keeps (e : DecodeError) (s : State) :
    raiseDecodeError e s = { s with csd := (raiseDecodeError e s).csd } := by
  cases e <;> rfl

/-- One step of a run. -/
theorem core_run_next {s t : State} (h : step s = .next t) (k : Nat) :
    Host.Core.run Sys2Proof.core (k + 1) s = Host.Core.run Sys2Proof.core k t := by
  have g : ∀ (M : Host.Core) (s t : M.State) (k : Nat), M.step s = .next t → M.run (k + 1) s = M.run k t := by
    intro M s t k h
    simp only [Host.Core.run, h]
  exact g Sys2Proof.core s t k h

end Sys2Proof.Machine
end

