-- ==== Sys2Proof/Laws/Faults.lean ====
section
/-! SUPPORT. The decoder's refusals are the situations of rules R97 and R98, and no others. -/

namespace Sys2Proof.Machine

/-- The recognised opcodes, as the decoder tests them. -/
theorem recognised_iff (op : Byte) :
    recognised op ↔
      (op = 0x50#8 ∨ op = 0x61#8 ∨ op = 0x62#8 ∨ op = 0x66#8 ∨ op.extractLsb' 4 4 = 0x7#4) := by
  unfold recognised; revert op; decide

theorem decode_unrecognised (op : Byte) (rest : List Byte) (h : ¬ recognised op) :
    decode (op :: rest) = .error (.unsupportedOpcode op) := by
  rw [recognised_iff] at h
  simp only [not_or] at h
  simp [decode, h]

theorem decode_of_unsupportedHere {s : State} (h : s.unsupportedHere) :
    decode s.fetchBytes = .error (.unsupportedOpcode (s.stream.read s.csd.cur.toNat)) := by
  obtain ⟨hc, hr⟩ := h
  rcases fetchBytes_cases s with ⟨h, hb⟩ | ⟨h, hb⟩ | ⟨h, hb⟩ | ⟨h, hb⟩
  · omega
  all_goals rw [hb]; exact decode_unrecognised _ _ hr

theorem decode_of_truncatedHere {s : State} (h : s.truncatedHere) : decode s.fetchBytes = .error .truncatedStream := by
  rcases fetchBytes_cases s with ⟨h1, hb⟩ | ⟨h1, hb⟩ | ⟨h1, hb⟩ | ⟨h1, hb⟩ <;> rw [hb] <;>
    rcases h with h | ⟨h, h', h''⟩ | ⟨h, h', h''⟩
  all_goals first | rfl | omega | (rw [h']; rfl)

/-- Why a fetch is refused. -/
theorem decode_error_cases {s : State} {e : DecodeError} (h : decode s.fetchBytes = .error e) :
    (e = .truncatedStream ∧ s.truncatedHere) ∨
      (e = .unsupportedOpcode (s.stream.read s.csd.cur.toNat) ∧ s.unsupportedHere) := by
  rcases fetchBytes_cases s with ⟨h1, hb⟩ | ⟨h1, hb⟩ | ⟨h1, hb⟩ | ⟨h1, hb⟩ <;> rw [hb] at h
  · cases h; exact .inl ⟨rfl, .inl h1⟩
  all_goals
    rcases decode_cases _ _ with ⟨h0, h2, e'⟩ | ⟨ho, dd, r, h2, e'⟩ | ⟨h0, h2, e'⟩ | ⟨ho, lo, hi, r, h2, e'⟩ |
      ⟨ho, e'⟩ | ⟨ho, e'⟩ | ⟨ho, e'⟩ | ⟨n1, n2, n3, n4, n5, e'⟩ <;> rw [e'] at h <;> cases h
    all_goals first
      | exact .inr ⟨rfl, by omega, by rw [recognised_iff]; simp [*]⟩
      | exact .inl ⟨rfl, .inr (.inl ⟨by omega, h0, by simp at h2 <;> omega⟩)⟩
      | exact .inl ⟨rfl, .inr (.inr ⟨by omega, h0, by simp at h2 <;> omega⟩)⟩

end Sys2Proof.Machine
end

