-- ==== Sys2Proof/Laws/Host.lean ====
section
/-! SUPPORT. A host that makes only legal calls never makes a step be refused, and its calls run out. -/

namespace Sys2Proof.Machine

theorem runDue_of_legal (calls : List HostCall) (s : State)
    (h : calls.all (fun c => c.op.legal s.cfg s.stream.len) = true) : ∃ t, runDue calls s = some t := by
  induction calls generalizing s with
  | nil => exact ⟨_, rfl⟩
  | cons c rest ih =>
    simp only [List.all_cons, Bool.and_eq_true] at h
    simp only [runDue]
    split
    · cases ho : c.op with
      | reset => exact ih (hostReset s) h.2
      | setRate r =>
        rw [ho] at h
        have hl : configLegal s.cfg r s.stream.len = true := h.1
        simp only [HostOp.apply, hostSetRate, hl, if_true]
        exact ih { s with src := s.src.forRate s.cfg r } h.2
    · exact ⟨_, rfl⟩

theorem hostTurn_of_legal {s : State} (h : s.hostLegal = true) : ∃ t, hostTurn s = some t :=
  runDue_of_legal s.host s h

/-- Legality of the calls to come is about them, the configuration and the length alone. -/
theorem hostLegal_mono {s t : State} (hc : t.cfg = s.cfg) (hs : t.stream = s.stream) (hh : t.host <:+ s.host)
    (h : s.hostLegal = true) : t.hostLegal = true := by
  simp only [State.hostLegal, hc, hs, List.all_eq_true] at h ⊢
  exact fun c hc => h c (hh.subset hc)

theorem hostTurn_hostLegal {s t : State} (h : s.hostLegal = true) (ht : hostTurn s = some t) :
    t.hostLegal = true :=
  let ha := hostTurn_acted ht
  hostLegal_mono ha.cfg ha.stream ha.host h

/-- A core operation brings the next call nearer and changes no call. -/
theorem afterCoreOp_all (P : HostOp → Bool) (calls : List HostCall) :
    (afterCoreOp calls).all (fun c => P c.op) = calls.all (fun c => P c.op) := by
  cases calls <;> rfl

theorem sampleAndEmit_hostLegal {s : State} (h : s.hostLegal = true) : (sampleAndEmit s).hostLegal = true := by
  have hs := sampleAndEmit_sampled s
  unfold State.hostLegal
  rw [hs.cfg, hs.stream, hs.host, afterCoreOp_all]
  exact h

theorem genSamples_hostLegal {n : Nat} {s t : State} (h : s.hostLegal = true) (ht : genSamples n s = some t) :
    t.hostLegal = true :=
  genSamples_induction (P := fun s => s.hostLegal = true) (fun _ _ h ht => hostTurn_hostLegal h ht)
    (fun _ h => sampleAndEmit_hostLegal h) n s t h ht

/-- A wait completes while the host's calls are legal. -/
theorem genSamples_of_legal (n : Nat) (s : State) (h : s.hostLegal = true) : ∃ t, genSamples n s = some t := by
  induction n generalizing s with
  | zero => exact ⟨s, rfl⟩
  | succ n ih =>
    obtain ⟨s', hs'⟩ := hostTurn_of_legal h
    rw [genSamples_succ, hs']
    exact ih _ (sampleAndEmit_hostLegal (hostTurn_hostLegal h hs'))

/-- The host's acts keep the configuration legal. -/
theorem hostTurn_configLegal {s t : State} (h : s.configLegal = true) (ht : hostTurn s = some t) :
    t.configLegal = true := by
  have ha := hostTurn_acted ht
  rcases ha.src with e | ⟨r, hr, e⟩
  · simpa [State.configLegal, ha.cfg, ha.stream, e] using h
  · rw [State.configLegal, ha.cfg, ha.stream, e]
    exact (configLegal_effectiveRate _ _ _).trans hr

end Sys2Proof.Machine
end

