-- ==== Sys2Proof/Laws/PerInstr.lean ====
section
/-! SUPPORT. Statements about every instruction as syntax, one lemma per constructor.

`EncodeLength`: an encoding has the length rule R45 gives it: for a stream command the length its first byte
fixes, for a write-byte form one byte (rule R48). -/

namespace Sys2Proof.Laws.EncodeLength

/-- The length of the encoding of a well-formed instruction. -/
def Statement (i : Instr) : Prop :=
  i.wellFormed = true →
    match i.level with
    | .stream => (encode i).head?.bind commandLength = some (encode i).length
    | .writeByte => (encode i).length = 1

theorem wr (dd : Byte) : Statement (.wr dd) := fun _ => rfl

theorem wait (n : Nat) : Statement (.wait n) := fun _ => rfl

theorem wait735 : Statement .wait735 := fun _ => rfl

theorem endOfStream : Statement .endOfStream := fun _ => rfl

theorem waits (n : Nat) : Statement (.waits n) := by
  intro h
  simp only [Instr.wellFormed, Bool.and_eq_true, decide_eq_true_eq] at h
  obtain ⟨h1, h2⟩ := h
  interval_cases n <;> rfl

theorem lt0 (d : BitVec 4) : Statement (.lt0 d) := fun _ => rfl

theorem lv0 (d : BitVec 4) : Statement (.lv0 d) := fun _ => rfl

theorem lt1 (d : BitVec 4) : Statement (.lt1 d) := fun _ => rfl

theorem lv1 (d : BitVec 4) : Statement (.lv1 d) := fun _ => rfl

theorem lt2 (d : BitVec 4) : Statement (.lt2 d) := fun _ => rfl

theorem lv2 (d : BitVec 4) : Statement (.lv2 d) := fun _ => rfl

theorem ln (d : BitVec 4) : Statement (.ln d) := fun _ => rfl

theorem lv3 (d : BitVec 4) : Statement (.lv3 d) := fun _ => rfl

theorem data (e : BitVec 7) : Statement (.data e) := fun _ => rfl

end Sys2Proof.Laws.EncodeLength
end

