-- ==== Sys2Proof/Laws/Writes.lean ====
section
/-! SUPPORT. The write byte as numbers: the two halves of a period, the noise control, and the frame of WR. -/

namespace Sys2Proof.Machine

/-- The period with its low 4 bits replaced, as a number. -/
theorem withLowBits_toNat (tp : BitVec 10) (d : BitVec 4) :
    (withLowBits tp d).toNat = tp.toNat / 16 * 16 + d.toNat := by
  have h1 := tp.isLt
  have h2 := d.isLt
  have e : tp.toNat / 2 ^ 4 % 2 ^ 6 = tp.toNat / 16 := by omega
  have := Nat.two_pow_add_eq_or_of_lt h2 (tp.toNat / 16)
  rw [Nat.mul_comm] at this
  rw [withLowBits, BitVec.toNat_append, BitVec.extractLsb'_toNat, Nat.shiftRight_eq_div_pow, Nat.shiftLeft_eq, e]
  exact this.symm

/-- The period with its high 6 bits replaced, as a number. -/
theorem withHighBits_toNat (tp : BitVec 10) (e : BitVec 6) :
    (withHighBits tp e).toNat = e.toNat * 16 + tp.toNat % 16 := by
  have h1 := tp.isLt
  have h2 := e.isLt
  have e' : tp.toNat / 2 ^ 0 % 2 ^ 4 = tp.toNat % 16 := by omega
  have := Nat.two_pow_add_eq_or_of_lt (show tp.toNat % 16 < 2 ^ 4 by omega) e.toNat
  rw [Nat.mul_comm] at this
  rw [withHighBits, BitVec.toNat_append, BitVec.extractLsb'_toNat, Nat.shiftRight_eq_div_pow, Nat.shiftLeft_eq, e']
  exact this.symm

/-- The fields of a noise-control value, as numbers. -/
theorem control_fields (c : BitVec 3) :
    (controlMode c = (if c.toNat / 4 % 2 = 1 then .white else .periodic)) ∧
      (controlSelector c = 3#2 ↔ c.toNat % 4 = 3) ∧
      (c.toNat % 4 ≠ 3 → (classPeriod (controlSelector c)).toNat = 32 * 2 ^ (c.toNat % 4)) := by
  revert c; decide

/-- The noise control does what rule R74 says. -/
theorem control_controlled (c : BitVec 3) (z : Noise) : noiseControlled c.toNat z (z.control c) := by
  obtain ⟨h1, h2, h3⟩ := control_fields c
  unfold Noise.control
  split
  · rename_i hc
    exact ⟨h1, fun _ => ⟨rfl, rfl⟩, fun h => absurd (h2.1 hc) h, rfl, rfl, rfl, rfl⟩
  · rename_i hc
    exact ⟨h1, fun h => absurd (h2.2 h) hc, fun h => ⟨rfl, h3 h⟩, rfl, rfl, rfl, rfl⟩

/-- The operand of LN and of DATA with the noise control latched, as numbers. -/
theorem lnControl_toNat (d : BitVec 4) : (lnControl d).toNat = d.toNat % 8 := by revert d; decide
theorem dataControl_toNat (e : BitVec 7) : (dataControl e).toNat = e.toNat % 8 := by revert e; decide
theorem dataPeriodBits_toNat (e : BitVec 7) : (dataPeriodBits e).toNat = e.toNat % 64 := by revert e; decide
theorem dataAttenuation_toNat (e : BitVec 7) : (dataAttenuation e).toNat = e.toNat % 16 := by revert e; decide

/-- The registers behind an address, by its number (rule R29). -/
theorem psgReg_tone (a : BitVec 3) (i : Fin 3) (h : a.toNat = 2 * i.val) : psgReg a = .tone i := by
  revert a i; decide
theorem psgReg_volume (a : BitVec 3) (c : Fin 4) (h : a.toNat = 2 * c.val + 1) : psgReg a = .volume c := by
  revert a c; decide
theorem psgReg_noiseControl (a : BitVec 3) (h : a.toNat = 6) : psgReg a = .noiseControl := by
  revert a; decide

/-- A WR command leaves everything but the PSG core, the cursor and the host's countdown alone. -/
theorem writeCommand_wroteOnlyPsg (f : PsgCore → PsgCore) (s : State) : wroteOnlyPsg s (writeCommand f s) :=
  ⟨rfl, rfl, rfl, rfl, fun _ => rfl, rfl, rfl⟩

/-- What a write byte leaves of the noise channel's counter and accumulator. -/
theorem NoiseWritten.keeps {z z' : Noise} (h : NoiseWritten z z') : z'.nc = z.nc ∧ z'.acc = z.acc := by
  rcases h with ⟨d, rfl⟩ | ⟨c, rfl⟩
  · exact ⟨rfl, rfl⟩
  · have h := control_controlled c z
    exact ⟨h.2.2.2.2.1, h.2.2.2.2.2.2⟩

/-- The byte `0x80 + 0x20 * i + d` is LT0, LT1 or LT2. -/
theorem psgWrite_toneLatch (i : Fin 3) (d : BitVec 4) (p : PsgCore) :
    psgWrite (BitVec.ofNat 8 (0x80 + 0x20 * i.val + d.toNat)) p =
      writeToneLow i d (setLatch (BitVec.ofNat 3 (2 * i.val)) p) := by
  have h3 : (BitVec.ofNat 4 (8 + 2 * i.val)).getLsbD 3 = true := by revert i; decide
  have hb : BitVec.ofNat 8 (0x80 + 0x20 * i.val + d.toNat) = BitVec.ofNat 4 (8 + 2 * i.val) ++ d := by
    clear h3; revert i d; decide
  obtain ⟨b1, b2, b3⟩ := pl_byte _ d h3
  rw [hb, psgWrite, if_pos b1, b2, b3]
  fin_cases i <;> rfl

/-- A byte below 0x80 is DATA. -/
theorem psgWrite_data (e : BitVec 7) (p : PsgCore) : psgWrite (0#1 ++ e) p = data e p := by
  obtain ⟨b1, b2⟩ := pd_byte e
  rw [psgWrite, b1, b2]
  rfl

end Sys2Proof.Machine
end

