-- ==== Sys2Proof/Tests/Slice0.lean ====
section
/-! SUPPORT. The model's own tests, from the vectors of spec/95_test_vectors.md and the worked examples of the rules,
and the witnesses: for each statement with hypotheses, concrete values that meet them all together. -/

namespace Sys2Proof.Tests

open Sys2Proof Sys2Proof.Machine

/-! Small machines. -/

/-- The arguments of spec/95 part 2.1: one chip tick per sample. -/
def params (bytes : List Byte) : Params :=
  { Config.resetParams with clkRaw := 705600#32, rateIn := 44100#32, stream := bytes }

/-- The machine constructed over a stream. -/
def machine (bytes : List Byte) : State := constructed (params bytes)

/-- The same, beginning at an index. -/
def machineAt (start : BitVec 32) (bytes : List Byte) : State := constructed { params bytes with dataOffset := start }

/-- The accurate path: `CSTEP = RSTEP = 48695`, one chip tick per sample. -/
def accurate (bytes : List Byte) : State := constructed { params bytes with qIn := 1#8 }

/-- The same machine in another end of run. -/
def withStatus (st : Status) (s : State) : State := { s with csd := { s.csd with status := st } }

/-- The PSG core after `Reset()` with another tone channel 0. -/
def core0 (t : Tone) : PsgCore := { PsgCore.reset with tone0 := t }

/-- The PSG core after `Reset()` with another noise channel. -/
def coreN (z : Noise) : PsgCore := { PsgCore.reset with noise := z }

/-- The four accumulators of a PSG core. -/
def withAccs (p : PsgCore) (a0 a1 a2 a3 : BitVec 16) : PsgCore :=
  { p with
    tone0 := { p.tone0 with acc := a0 }
    tone1 := { p.tone1 with acc := a1 }
    tone2 := { p.tone2 with acc := a2 }
    noise := { p.noise with acc := a3 } }

/-- One chip tick per invocation. -/
def tick1 (p : PsgCore) : PsgCore := advanceTick 0x0009#16 0x01000000#32 p

/-- What `stepCsd` reads: the decoder's registers after one step. -/
def stepCsd (s : State) : Option CsdRegs := (nextState (step s)).map (fun t => t.csd)

/-- The PSG core after one step. -/
def stepPsg (s : State) : Option PsgCore := (nextState (step s)).map (fun t => t.psg)

/-- The output after one step. -/
def stepOut (s : State) : Option (List Item) := (nextState (step s)).map (fun t => t.out)

/-- The decoder's registers of a run still going on, at a cursor. -/
def running (cur : BitVec 32) : CsdRegs := { cur := cur, status := .run, fcode := 0#2, fbyte := 0#8, faddr := 0#32 }

/-- The decoder's registers after a fault at a cursor. -/
def faulted (code : BitVec 2) (byte : Byte) (cur : BitVec 32) : CsdRegs :=
  { cur := cur, status := .fault, fcode := code, fbyte := byte, faddr := cur }

/-! Which terms are well formed (rule R53). -/

theorem test_wellFormed_refuses_wait_65536 : (Instr.wait 65536).wellFormed = false := by decide
theorem test_wellFormed_admits_wait_65535 : (Instr.wait 65535).wellFormed = true := by decide
theorem test_wellFormed_refuses_waits_0 : (Instr.waits 0).wellFormed = false := by decide
theorem test_wellFormed_refuses_waits_17 : (Instr.waits 17).wellFormed = false := by decide

/-! Decoding: each constructor from a word written out from the spec's encoding (rules R44, R47, R65 to R73). -/

theorem test_decode_wr : decode [0b01010000#8, 0b01100110#8, 0x66#8] = .ok (.wr 0x66#8, [0x66#8]) := by decide
/-- Rule R35 and vector V7: little-endian. -/
theorem test_decode_wait : decode [0b01100001#8, 0b00000001#8, 0b00000010#8] = .ok (.wait 513, []) := by decide
theorem test_decode_wait735 : decode [0b01100010#8] = .ok (.wait735, []) := by decide
theorem test_decode_endOfStream : decode [0b01100110#8, 0x50#8] = .ok (.endOfStream, [0x50#8]) := by decide
/-- Rule R58: `73` is 4 samples. -/
theorem test_decode_waits : decode [0b01110011#8] = .ok (.waits 4, []) := by decide
theorem test_decode_lt0 : decodeWrite 0b10001100#8 = .lt0 12#4 := by decide
theorem test_decode_lv0 : decodeWrite 0b10011111#8 = .lv0 15#4 := by decide
theorem test_decode_lt1 : decodeWrite 0b10100101#8 = .lt1 5#4 := by decide
theorem test_decode_lv1 : decodeWrite 0b10110010#8 = .lv1 2#4 := by decide
theorem test_decode_lt2 : decodeWrite 0b11001111#8 = .lt2 15#4 := by decide
theorem test_decode_lv2 : decodeWrite 0b11010100#8 = .lv2 4#4 := by decide
theorem test_decode_ln : decodeWrite 0b11101111#8 = .ln 15#4 := by decide
theorem test_decode_lv3 : decodeWrite 0b11110010#8 = .lv3 2#4 := by decide
theorem test_decode_data : decodeWrite 0b01111010#8 = .data 0b1111010#7 := by decide

/-- Vectors V12 and V15: unrecognised bytes are refused by name. -/
theorem test_decode_refuses_unrecognised :
    decode [0x4F#8, 0x00#8] = .error (.unsupportedOpcode 0x4F#8) ∧
      decode [0x63#8] = .error (.unsupportedOpcode 0x63#8) ∧ decode [0x80#8] = .error (.unsupportedOpcode 0x80#8) := by
  decide

/-- Rule R98: what is cut short is refused by name. -/
theorem test_decode_refuses_truncated :
    decode [] = .error .truncatedStream ∧ decode [0x50#8] = .error .truncatedStream ∧
      decode [0x61#8, 0x05#8] = .error .truncatedStream := by
  decide

/-- Rule R53: `WR LV1 0` is the bytes `50 B0`, `WAIT n` is low byte first, `WAITS 16` is `7F`. -/
theorem test_encode_examples :
    streamBytes (.lv1 0#4) = [0x50#8, 0xB0#8] ∧ streamBytes (.wait 735) = [0x61#8, 0xDF#8, 0x02#8] ∧
      streamBytes (.waits 16) = [0x7F#8] := by
  decide

/-- Rows of the opcode table as words of the table: WR `9F`, WAIT 735, LT1 5, DATA 0. -/
theorem test_decodeTableWord :
    decodeTableWord 16 0x9F50 = some (.wr 0x9F#8) ∧ decodeTableWord 24 0x02DF61 = some (.wait 735) ∧
      decodeTableWord 8 0xA5 = some (.lt1 5#4) ∧ decodeTableWord 8 0x00 = some (.data 0#7) := by
  decide

/-! Reset and construction. -/

/-- `State.reset` is what `Construct` gives for the arguments of log entry 1. -/
theorem test_reset_is_constructed : nextState (construct Config.resetParams) = some State.reset := by decide

/-- Vector V50a: clock flags split off, step constants of the accurate path. -/
theorem test_construct_V50a :
    let s := constructed { Config.resetParams with clkRaw := 0xC0369E99#32, qIn := 1#8 }
    s.cfg.clk = 3579545#30 ∧ s.cfg.clkFlags = 3#2 ∧ s.src.binc = 0x01000000#32 ∧ s.src.rstep = 48695#32 ∧
      s.src.cstep = 9598#32 := by
  decide

/-- Vectors V50, V50b, V50d to V50f, V50h to V50j. -/
theorem test_step_constants :
    bincOf 3579545#30 44100#32 0#8 = 0x0512B37D#32 ∧ bincOf 2048000#30 1000#32 0#8 = 0x80000000#32 ∧
      bincOf 4000000#30 48000#32 0#8 = 0x05355555#32 ∧ bincOf 352800#30 44100#32 0#8 = 0x00800000#32 ∧
      bincOf 2048000#30 3000#32 0#8 = 0x2AAAAAAA#32 ∧ rstepOf 1000#32 1#8 = 2147483#32 ∧
      cstepOf 2048000#30 1#8 = 16777#32 ∧ cstepOf 16#30 1#8 = 2147483648#32 ∧ cstepOf 0x3FFFFFFF#30 1#8 = 32#32 ∧
      rstepOf 0x80000000#32 1#8 = 1#32 ∧ rstepOf 0x80000001#32 1#8 = 0#32 := by
  decide

/-- Vectors V50g, V50h, V50k: what `ConfigLegal` admits and refuses. -/
theorem test_configLegal :
    Params.legal { Config.resetParams with rateIn := 874#32 } = true ∧
      Params.legal { Config.resetParams with rateIn := 873#32 } = false ∧
      Params.legal { Config.resetParams with clkRaw := 15#32, qIn := 1#8 } = false ∧
      Params.legal { Config.resetParams with clkRaw := 0xC0000000#32 } = false ∧
      Params.legal { Config.resetParams with srwIn := 15#8 } = false ∧
      Params.legal { Config.resetParams with flagsIn := 1#8 } = false := by
  decide

/-! Stream commands, one step each (vectors V3 to V22). -/

/-- Vector V22: the operand `66` of WR is a DATA byte for tone 0, not END. -/
theorem test_wr_V22 :
    stepPsg (machine [0x50#8, 0x66#8, 0x66#8, 0x00#8]) = some (core0 { Tone.reset with tp := 0x260#10 }) ∧
      stepCsd (machine [0x50#8, 0x66#8, 0x66#8, 0x00#8]) = some (running 2#32) := by
  decide

/-- Vector V19: WR without its operand. -/
theorem test_wr_truncated_V19 : stepCsd (machineAt 1#32 [0x70#8, 0x50#8]) = some (faulted 2#2 0#8 1#32) := by decide

/-- Vectors V3 and V4: no sample, and five. -/
theorem test_wait_V3_V4 :
    stepOut (machine [0x61#8, 0x00#8, 0x00#8, 0x66#8]) = some [] ∧
      stepCsd (machine [0x61#8, 0x05#8, 0x00#8, 0x66#8]) = some (running 3#32) ∧
      (stepPsg (machine [0x61#8, 0x05#8, 0x00#8, 0x66#8])).map (fun p => (p.tone1.tc, p.noise.nc)) = some (5#11, 5#9) ∧
      stepOut (machine [0x61#8, 0x05#8, 0x00#8, 0x66#8]) = some (List.replicate 5 (.mono 0)) := by
  decide +kernel

/-- Vectors V20, V21: a truncated WAIT emits nothing. -/
theorem test_wait_truncated_V20_V21 :
    stepCsd (machineAt 2#32 [0x50#8, 0x90#8, 0x61#8, 0x05#8]) = some (faulted 2#2 0#8 2#32) ∧
      stepOut (machineAt 2#32 [0x50#8, 0x90#8, 0x61#8, 0x05#8]) = some [] ∧
      stepCsd (machineAt 1#32 [0x71#8, 0x61#8]) = some (faulted 2#2 0#8 1#32) := by
  decide

/-- Rule R57: 735 samples and one byte. -/
theorem test_wait735 (s : State) : exec .wait735 s = waitCommand 735 1 s := rfl

/-- Vector V5: `70` is one sample, `7F` sixteen. -/
theorem test_waits_V5 :
    stepOut (machine [0x70#8, 0x66#8]) = some [.mono 0] ∧
      (stepOut (machine [0x7F#8, 0x66#8])).map List.length = some 16 ∧
      (stepPsg (machine [0x7F#8, 0x66#8])).map (fun p => p.tone2.tc) = some 16#11 ∧
      stepCsd (machine [0x7F#8, 0x66#8]) = some (running 1#32) := by
  decide +kernel

/-- Vectors V10, V11: END needs and reads no further byte. -/
theorem test_end_V10 :
    stepCsd (machine [0x66#8, 0x50#8]) = some { running 1#32 with status := .halt } ∧
      stepCsd (machine [0x66#8]) = some { running 1#32 with status := .halt } := by
  decide

/-- Vectors V12, V14, V16, V17: the two faults and their record. -/
theorem test_faults_V12_V14_V16_V17 :
    stepCsd (machine [0x4F#8, 0x00#8, 0x66#8]) = some (faulted 1#2 0x4F#8 0#32) ∧
      stepCsd (machineAt 1#32 [0x70#8, 0xFF#8]) = some (faulted 1#2 0xFF#8 1#32) ∧
      stepCsd (machine []) = some (faulted 2#2 0#8 0#32) ∧
      stepCsd (machineAt 1#32 [0x66#8]) = some (faulted 2#2 0#8 1#32) := by
  decide

/-! Write bytes (vectors V23 to V29k): the whole PSG core after them. -/

/-- Vector V24. -/
theorem test_lt0_V24 :
    psgWrite 0x8C#8 (core0 { Tone.reset with tp := 0x3A7#10 }) = core0 { Tone.reset with tp := 0x3AC#10 } := by
  decide

/-- Vector V23. -/
theorem test_lt0_data_V23 :
    psgWrite 0x0F#8 (psgWrite 0x8E#8 PsgCore.reset) = core0 { Tone.reset with tp := 254#10 } := by
  decide

/-- Vector V25. -/
theorem test_lt1_data_V25 :
    let full : Tone := { Tone.reset with tp := 0x3FF#10 }
    psgWrite 0x00#8 (psgWrite 0xA0#8 { PsgCore.reset with tone0 := full, tone1 := full, tone2 := full }) =
      { PsgCore.reset with tone0 := full, tone1 := Tone.reset, tone2 := full, latch := 2#3 } := by
  decide

/-- Vector V26: bit 6 of the DATA byte is ignored. -/
theorem test_lt2_data_V26 :
    psgWrite 0x7F#8 (psgWrite 0xC5#8 PsgCore.reset) =
      { PsgCore.reset with tone2 := { Tone.reset with tp := 0x3F5#10 }, latch := 4#3 } := by
  decide

/-- Vector V28. -/
theorem test_lv0_data_V28 :
    psgWrite 0x05#8 (psgWrite 0x9A#8 PsgCore.reset) =
      { PsgCore.reset with tone0 := { Tone.reset with att := 5#4 }, latch := 1#3 } := by
  decide

/-- Source property S3. -/
theorem test_lv1_S3 :
    psgWrite 0xB0#8 PsgCore.reset = { PsgCore.reset with tone1 := { Tone.reset with att := 0#4 }, latch := 3#3 } := by
  decide

/-- Vector V29a. -/
theorem test_lv2_V29a :
    psgWrite 0xD4#8 PsgCore.reset = { PsgCore.reset with tone2 := { Tone.reset with att := 4#4 }, latch := 5#3 } := by
  decide

/-- Vectors V29b, V29c: the noise volume does not reset the seed. -/
theorem test_lv3_V29b_V29c :
    psgWrite 0x28#8 (psgWrite 0xF3#8 PsgCore.reset) =
        { PsgCore.reset with noise := { Noise.reset with att := 8#4 }, latch := 7#3 } ∧
      (psgWrite 0xF0#8 (coreN { Noise.reset with seed := 0x1234#16 })).noise.seed = 0x1234#16 := by
  decide

/-- Vector V29e: bit 3 of the data field is ignored; selector 3 keeps `NP`. -/
theorem test_ln_V29e :
    psgWrite 0xEF#8 (coreN { Noise.reset with seed := 0x1234#16 }) =
      { coreN { Noise.reset with nmode := .white, nref := true } with latch := 6#3 } := by
  decide

/-- Vectors V29f, V29g: the three classes. -/
theorem test_ln_V29f_V29g :
    (psgWrite 0xE6#8 PsgCore.reset).noise = { Noise.reset with nmode := .white, np := 128#9 } ∧
      (psgWrite 0xE0#8 PsgCore.reset).noise.np = 32#9 ∧ (psgWrite 0xE1#8 PsgCore.reset).noise.np = 64#9 := by
  decide

/-- Vector V29i: DATA on the noise control, `NP` kept by selector 3. -/
theorem test_data_V29i :
    (psgWrite 0x07#8 (psgWrite 0xE3#8 (coreN { Noise.reset with np := 64#9, seed := 0x1234#16 }))).noise =
      { Noise.reset with nmode := .white, nref := true, np := 64#9 } := by
  decide

/-- Vector V29j: an intervening latch redirects the DATA byte. -/
theorem test_data_V29j :
    psgWrite 0x0F#8 (psgWrite 0x90#8 (psgWrite 0x8E#8 PsgCore.reset)) =
      { core0 { Tone.reset with tp := 14#10, att := 15#4 } with latch := 1#3 } := by
  decide

/-! The tick (vectors V31 to V49). -/

/-- Vectors V31, V33. -/
theorem test_phase_V31_V33 :
    phaseTicks 0xF00000#24 0x0512B37D#32 = 6 ∧ phaseRest 0xF00000#24 0x0512B37D#32 = 0x02B37D#24 ∧
      phaseTicks 0xFFFFFF#24 0xFFFFFFFF#32 = 256 ∧ phaseRest 0xFFFFFF#24 0xFFFFFFFF#32 = 0xFFFFFE#24 := by
  decide

/-- Vectors V36, V37 (first invocation): the subtraction, and the clamp of `NP`. -/
theorem test_noise_V36_V37 :
    (tick1 (coreN { Noise.reset with nc := 255#9, np := 32#9 })).noise =
        { Noise.reset with nc := 224#9, np := 32#9, seed := 0x4000#16 } ∧
      (tick1 (coreN { Noise.reset with nc := 255#9 })).noise = { Noise.reset with nc := 255#9, seed := 0x4000#16 } := by
  decide

/-- Vectors V38 (third invocation), V39: the tone-referenced period, not clamped. -/
theorem test_noise_V38_V39 :
    (tick1 (coreN { Noise.reset with nc := 257#9, nref := true, seed := 0x2000#16 })).noise =
        { Noise.reset with nc := 258#9, nref := true, seed := 0x1000#16 } ∧
      (tick1 { coreN { Noise.reset with nc := 255#9, nref := true } with
        tone2 := { Tone.reset with tp := 100#10 } }).noise.nc = 156#9 := by
  decide

/-- Vectors V41 to V45: the white shift. -/
theorem test_noise_white_V41_to_V45 :
    shiftSeed .white 0x0009#16 0x0001#16 = 0x8000#16 ∧ shiftSeed .white 0x0009#16 0x0008#16 = 0x8004#16 ∧
      shiftSeed .white 0x0009#16 0x0009#16 = 0x0004#16 ∧ shiftSeed .white 0x0000#16 0x0001#16 = 0x0000#16 ∧
      shiftSeed .white 0xFFFF#16 0x8003#16 = 0xC001#16 := by
  decide

/-- Vector V46: the accumulator sees the seed after the shift. -/
theorem test_noise_V46 :
    (tick1 (coreN { Noise.reset with nc := 255#9, np := 32#9, seed := 1#16, att := 0#4, acc := 100#16 })).noise =
      { Noise.reset with nc := 224#9, np := 32#9, seed := 0x8000#16, att := 0#4, acc := 50#16 } := by
  decide

/-- Vectors V47, V48: toggle and subtract; degenerate periods. -/
theorem test_tone_V47_V48 :
    (tick1 (core0 { Tone.reset with tc := 1023#11, tp := 254#10 })).tone0 =
        { Tone.reset with tc := 770#11, tp := 254#10, edge := true } ∧
      (tick1 (core0 { Tone.reset with tc := 1023#11, tp := 1#10 })).tone0 =
        { Tone.reset with tc := 1024#11, tp := 1#10, edge := true } ∧
      (tick1 (core0 { Tone.reset with tc := 1023#11, tp := 2#10 })).tone0 =
        { Tone.reset with tc := 1022#11, tp := 2#10, edge := true } := by
  decide

/-- Vectors V49, V49a (first invocation): the 11-bit wrap; more ticks than the period. -/
theorem test_tone_V49_V49a :
    (tick1 (core0 { Tone.reset with tc := 2047#11, edge := true })).tone0 = { Tone.reset with edge := true } ∧
      (advanceTick 0x0009#16 0x80000000#32 (core0 { Tone.reset with tc := 1000#11, tp := 10#10, att := 0#4 })).tone0 =
        { Tone.reset with tc := 1118#11, tp := 10#10, att := 0#4, edge := true, acc := 127#16 } := by
  decide

/-- Vectors V40c (a muted channel only decays), V40d, V40g (no chip tick, one update all the same). -/
theorem test_accumulators_V40c_V40d_V40g :
    (tick1 (core0 { Tone.reset with edge := true, mute := true, att := 0#4, acc := 254#16 })).tone0.acc = 127#16 ∧
      (tick1 (core0 { Tone.reset with edge := true, att := 14#4 })).tone0.acc = 5#16 ∧
      (tick1 (coreN { Noise.reset with seed := 1#16, att := 0#4, acc := 100#16 })).noise.acc = 177#16 ∧
      (advanceTick 0x0009#16 0x00800000#32 (core0 { Tone.reset with edge := true, att := 0#4 })).tone0 =
        { Tone.reset with edge := true, att := 0#4, acc := 127#16 } := by
  decide

/-! Mixers and samples (vectors V51, V53). -/

/-- Vectors V51, V51b: both mixers, a mask, and the truncation. -/
theorem test_mix_V51 :
    mix .mono (withAccs PsgCore.reset 254#16 100#16 0#16 27#16) = .mono 381 ∧
      mix .stereo (withAccs PsgCore.reset 254#16 100#16 0#16 27#16) = .stereo 381 381 ∧
      mix .stereo { withAccs PsgCore.reset 254#16 100#16 0#16 27#16 with stereo := 0x12#8 } = .stereo 254 100 ∧
      mix .mono (withAccs PsgCore.reset 0x7FFF#16 1#16 0#16 0#16) = .mono (-32768) := by
  decide

/-- Vectors V53, V53c to V53e: how often the loop runs, read from tone 0's counter, and `CTIME` after it. -/
theorem test_accurateTicks_V53 :
    let run := fun (r c t : BitVec 32) =>
      let x := accurateTicks 0x0009#16 { rate := 1#32, binc := 0x01000000#32, rstep := r, cstep := c, ctime := t }
        PsgCore.reset
      (x.1, x.2.tone0.tc)
    run 48695#32 9598#32 0#32 = (8893#32, 6#11) ∧ run 100#32 32#32 0#32 = (28#32, 4#11) ∧
      run 48695#32 9598#32 48695#32 = (0#32, 0#11) ∧ run 0#32 9598#32 5#32 = (5#32, 0#11) := by
  decide +kernel

/-! The host (vector V54) and the placing of a word. -/

/-- Vector V54: `SetRate(3000)` in mid-run recomputes the constant and keeps the phase. -/
theorem test_setRate_V54 :
    let s := constructed { params [] with clkRaw := 2048000#32, rateIn := 1000#32 }
    (hostSetRate 3000#32 s).map (fun t => (t.src.rate, t.src.binc, t.psg)) =
      some (3000#32, 0x2AAAAAAA#32, PsgCore.reset) := by
  decide

/-- Vector V54: `Reset()` leaves the rate alone; here it comes due between the first and the second sample. -/
theorem test_reset_between_samples_V54 :
    let s := (machine [0x71#8, 0x66#8]).withHostCalls [{ delay := 1, op := .reset }]
    (stepPsg s).map (fun p => p.tone0.tc) = some 1#11 ∧ (nextState (step s)).map (fun t => t.src.rate) = some 44100#32 := by
  decide +kernel

/-- A write-byte row placed after reset runs as the operand of WR: LT1 5 (rule R66's example). -/
theorem test_withFetchWord_lt1 :
    stepPsg (State.reset.withFetchWord 8 0xA5) =
      some { PsgCore.reset with tone1 := { Tone.reset with tp := 0x005#10 }, latch := 2#3 } := by
  decide

/-- A stream row placed after reset runs as it stands, its operand zeros when the word gives it none. -/
theorem test_withFetchWord_wait :
    stepCsd (State.reset.withFetchWord 8 0x61) = some (running 3#32) ∧
      stepOut (State.reset.withFetchWord 8 0x70) = some [.mono 0] := by
  decide +kernel

/-! The witnesses, in the order of the statements. -/

/-- StreamCommandsDecodeAsEncoded. -/
theorem witness_stream_command :
    (Instr.wait 65535).level = .stream ∧ (Instr.wait 65535).wellFormed = true ∧
      (Instr.waits 16).level = .stream ∧ (Instr.waits 16).wellFormed = true := by
  decide

/-- WriteBytesDecodeAsEncoded. -/
theorem witness_write_byte : (Instr.data 0x7F#7).level = .writeByte := by decide

/-- DecodedBytesAreTheEncoding. -/
theorem witness_decoded : decode [0x7F#8, 0x66#8] = .ok (.waits 16, [0x66#8]) := by decide

/-- OpcodeMapOfByteZero: both ends of the short waits, and the unrecognised neighbours of every recognised value. -/
theorem witness_opcode_map :
    decode [0x70#8] = .ok (.waits 1, []) ∧ decode [0x7F#8] = .ok (.waits 16, []) ∧
      (¬ recognised 0x4F#8 ∧ ¬ recognised 0x51#8 ∧ ¬ recognised 0x60#8 ∧ ¬ recognised 0x63#8 ∧ ¬ recognised 0x65#8 ∧
        ¬ recognised 0x67#8 ∧ ¬ recognised 0x6F#8 ∧ ¬ recognised 0x80#8 ∧ ¬ recognised 0x00#8 ∧ ¬ recognised 0xFF#8) ∧
      (0x50#8).toNat = 0x50 ∧ (0x61#8).toNat = 0x61 ∧ (0x62#8).toNat = 0x62 ∧ (0x66#8).toNat = 0x66 := by
  simp [recognised, decode, waitsCount]

/-- LengthFromByteZero: a command of each length accepted, and a recognised byte 0 with the most bytes a command takes. -/
theorem witness_lengths :
    decode [0x50#8, 0xFF#8] = .ok (.wr 0xFF#8, []) ∧ decode [0x61#8, 0xFF#8, 0xFF#8] = .ok (.wait 65535, []) ∧
      decode [0x7F#8, 0xFF#8] = .ok (.waits 16, [0xFF#8]) ∧ recognised 0x7F#8 ∧ 2 ≤ [0xFF#8, 0xFF#8].length := by
  simp [recognised, decode, waitsCount, waitCount]

/-- OperandsComeFromTheStream: each command as the last one of its stream. -/
theorem witness_operands :
    (machine [0x50#8, 0xFF#8]).csd.cur.toNat + 2 ≤ (machine [0x50#8, 0xFF#8]).stream.len ∧
      (machine [0x61#8, 0x01#8, 0x02#8]).csd.cur.toNat + 3 ≤ (machine [0x61#8, 0x01#8, 0x02#8]).stream.len ∧
      ((machine [0x7F#8]).stream.read 0).toNat / 16 = 7 ∧ ((machine [0x70#8]).stream.read 0).toNat / 16 = 7 ∧
      ((machine [0x62#8]).stream.read 0).toNat = 0x62 ∧ ((machine [0x66#8]).stream.read 0).toNat = 0x66 ∧
      (machine [0x66#8]).csd.cur.toNat < (machine [0x66#8]).stream.len := by
  decide

/-- WriteByteMapOfAllValues: the ends of its ranges. -/
theorem witness_write_map :
    decodeWrite 0x00#8 = .data 0#7 ∧ decodeWrite 0x7F#8 = .data 0x7F#7 ∧ decodeWrite 0x80#8 = .lt0 0#4 ∧
      decodeWrite 0x8F#8 = .lt0 15#4 ∧ decodeWrite 0x90#8 = .lv0 0#4 ∧ decodeWrite 0x9F#8 = .lv0 15#4 ∧
      decodeWrite 0xA0#8 = .lt1 0#4 ∧ decodeWrite 0xAF#8 = .lt1 15#4 ∧ decodeWrite 0xB0#8 = .lv1 0#4 ∧
      decodeWrite 0xBF#8 = .lv1 15#4 ∧ decodeWrite 0xC0#8 = .lt2 0#4 ∧ decodeWrite 0xCF#8 = .lt2 15#4 ∧
      decodeWrite 0xD0#8 = .lv2 0#4 ∧ decodeWrite 0xDF#8 = .lv2 15#4 ∧ decodeWrite 0xE0#8 = .ln 0#4 ∧
      decodeWrite 0xEF#8 = .ln 15#4 ∧ decodeWrite 0xF0#8 = .lv3 0#4 ∧ decodeWrite 0xFF#8 = .lv3 15#4 := by
  decide

/-- FetchSeesTheStream: the last byte of the stream and of the window. -/
theorem witness_fetch :
    let s := machine [0x61#8, 0x05#8, 0x07#8]
    s.csd.cur.toNat + 2 < s.stream.len ∧ s.fetchBytes[2]? = some 0x07#8 := by
  decide

/-- StepRunsTheDecodedCommand, UnsupportedOpcodeEntersFault, TruncatedStreamEntersFault, FaultsAreRaisedExactlyThere:
a running, legal machine with a host call that is due, the command fetched after it. -/
theorem witness_step :
    let s := (machine [0x66#8]).withHostCalls [{ delay := 0, op := .reset }]
    s.csd.status = .run ∧ s.configLegal = true ∧ hostTurn s = some (machine [0x66#8]) ∧
      decode (machine [0x66#8]).fetchBytes = .ok (.endOfStream, []) ∧ (machine [0x66#8]).host = [] := by
  decide

/-- UnsupportedOpcodeEntersFault, FaultsAreRaisedExactlyThere. -/
theorem witness_unsupported :
    (machine [0x4F#8]).csd.status = .run ∧ (machine [0x4F#8]).configLegal = true ∧
      hostTurn (machine [0x4F#8]) = some (machine [0x4F#8]) ∧ (machine [0x4F#8]).unsupportedHere ∧
      ∃ t, step (machine [0x4F#8]) = .next t :=
  ⟨rfl, by decide, rfl, ⟨by decide, by rw [show (machine [0x4F#8]).stream.read _ = 0x4F#8 from rfl]; simp [recognised]⟩,
    _, rfl⟩

/-- TruncatedStreamEntersFault, clause (a): the cursor at the end. -/
theorem witness_truncated_a :
    (machineAt 1#32 [0x66#8]).csd.status = .run ∧ (machineAt 1#32 [0x66#8]).configLegal = true ∧
      hostTurn (machineAt 1#32 [0x66#8]) = some (machineAt 1#32 [0x66#8]) ∧ (machineAt 1#32 [0x66#8]).truncatedHere :=
  ⟨rfl, by decide, rfl, .inl (by decide)⟩

/-- TruncatedStreamEntersFault, clause (b): WR in the last place. -/
theorem witness_truncated_b :
    (machine [0x50#8]).csd.status = .run ∧ (machine [0x50#8]).configLegal = true ∧
      hostTurn (machine [0x50#8]) = some (machine [0x50#8]) ∧ (machine [0x50#8]).truncatedHere :=
  ⟨rfl, by decide, rfl, .inr (.inl ⟨by decide, rfl, by decide⟩)⟩

/-- TruncatedStreamEntersFault, clause (c): WAIT with one operand byte. -/
theorem witness_truncated_c :
    (machine [0x61#8, 0x05#8]).csd.status = .run ∧ (machine [0x61#8, 0x05#8]).configLegal = true ∧
      hostTurn (machine [0x61#8, 0x05#8]) = some (machine [0x61#8, 0x05#8]) ∧
      (machine [0x61#8, 0x05#8]).truncatedHere ∧ (machine [0x61#8]).truncatedHere :=
  ⟨rfl, by decide, rfl, .inr (.inr ⟨by decide, rfl, by decide⟩), .inr (.inr ⟨by decide, rfl, by decide⟩)⟩

/-- StoppedMachineHasNoStep: both ends. -/
theorem witness_stopped :
    (withStatus .halt (machine [])).csd.status = .halt ∧ (withStatus .fault (machine [])).csd.status = .fault :=
  ⟨rfl, rfl⟩

/-- IllegalConfigurationIsRefused: a running machine and arguments outside `ConfigLegal`, and a legal configuration of
each path at the edge of its own condition. -/
theorem witness_illegal :
    (let s := { machine [0x66#8] with cfg := { (machine [0x66#8]).cfg with srw := 15#8 } };
      s.csd.status = .run ∧ s.configLegal = false) ∧
      Params.legal { params [] with clkRaw := 0xC0000000#32 } = false ∧
      Params.legal { params [] with clkRaw := 3579545#32, rateIn := 874#32 } = true ∧
      Params.legal { params [] with clkRaw := 16#32, qIn := 1#8 } = true := by
  decide

/-- ReadyMachineAlwaysSteps, EveryRunEnds: ready, with a legal host call to come. -/
theorem witness_ready :
    ((machine [0x70#8]).withHostCalls [{ delay := 1, op := .setRate 0#32 }]).ready = true := by
  decide

/-- PlacedTableWordIsRun. -/
theorem witness_placed :
    State.reset.configLegal = true ∧ State.reset.stream.wf = true ∧ State.reset.host = [] ∧
      decodeTableWord 8 0xA5 = some (.lt1 5#4) ∧ decodeTableWord 24 0x000561 = some (.wait 5) := by
  decide

/-- DataWritesTheLatchedRegister: each clause, at both ends of its registers. -/
theorem witness_latched :
    (0#3 : BitVec 3).toNat = 2 * (0 : Fin 3).val ∧ (4#3 : BitVec 3).toNat = 2 * (2 : Fin 3).val ∧
      (1#3 : BitVec 3).toNat = 2 * (0 : Fin 4).val + 1 ∧ (7#3 : BitVec 3).toNat = 2 * (3 : Fin 4).val + 1 ∧
      (6#3 : BitVec 3).toNat = 6 := by
  decide

/-- WaitsEmitTheirCount: a legal host call. WaitsRunTheirSamples, WaitsKeepTheProgrammedRegisters: no call. -/
theorem witness_waits :
    ((machine []).withHostCalls [{ delay := 3, op := .reset }]).hostLegal = true ∧ (machine []).host = [] := by
  decide

/-- WaitFormsAgree: two waits in a row that complete, and the long form completing. -/
theorem witness_wait_forms :
    ∃ t u v, exec (.wait 1) (machine []) = .next t ∧ exec (.wait 2) t = .next u ∧ exec (.wait 735) (machine []) = .next v :=
  ⟨_, _, _, rfl, rfl, by
    simp only [exec, execWait]
    exact waitCommand_of_some (genSamples_of_nil 735 (machine []) rfl)⟩

/-- EndHaltsWhateverFollows: END in the last place. -/
theorem witness_end :
    (machine [0x66#8]).csd.status = .run ∧ (machine [0x66#8]).configLegal = true ∧ (machine [0x66#8]).host = [] ∧
      (machine [0x66#8]).csd.cur.toNat < (machine [0x66#8]).stream.len ∧
      (machine [0x66#8]).stream.read (machine [0x66#8]).csd.cur.toNat = 0x66#8 := by
  decide

/-- PhaseStepSplitsTheSum: the accurate path's `BINC`, and the largest sum that does not carry; PhaseKeepsTheRunningTotal:
a start at 0. -/
theorem witness_phase :
    (0x01000000#32).toNat = 2 ^ 24 ∧ (0x800000#24).toNat + (0x7FFFFF#32).toNat < 2 ^ 24 ∧ PsgCore.reset.bph = 0#24 := by
  decide

/-- ToneCounterTick: below the threshold, at it with a proper and with a degenerate period, at the top. -/
theorem witness_tone_tick :
    ((1022#11 : BitVec 11).toNat + (0 + (0x01000000#32).toNat) / 2 ^ 24) % 2048 < 1024 ∧
      1024 ≤ ((1023#11 : BitVec 11).toNat + (0 + (0x01000000#32).toNat) / 2 ^ 24) % 2048 ∧
      1024 ≤ ((2046#11 : BitVec 11).toNat + (0 + (0x01000000#32).toNat) / 2 ^ 24) % 2048 ∧
      1 < (2#10 : BitVec 10).toNat ∧ (1#10 : BitVec 10).toNat ≤ 1 := by
  decide

/-- NoiseCounterTick: below the threshold, at it, and at the top. -/
theorem witness_noise_tick :
    ((254#9 : BitVec 9).toNat + (0 + (0x01000000#32).toNat) / 2 ^ 24) % 512 < 256 ∧
      256 ≤ ((255#9 : BitVec 9).toNat + (0 + (0x01000000#32).toNat) / 2 ^ 24) % 512 ∧
      256 ≤ ((510#9 : BitVec 9).toNat + (0 + (0x01000000#32).toNat) / 2 ^ 24) % 512 := by
  decide

/-- DegeneratePeriodHoldsTheEdge: an edge already high, and a low one whose counter reaches bit 10 just at the tick. -/
theorem witness_degenerate :
    ((core0 { Tone.reset with tp := 1#10, edge := true }).tone 0).tp.toNat ≤ 1 ∧
      ((core0 { Tone.reset with tp := 1#10, edge := true }).tone 0).edge = true ∧
      (let p := core0 { Tone.reset with tc := 1016#11 }
      (p.tone 0).tp.toNat ≤ 1 ∧ (p.tone 0).edge = false ∧ 0 < 1 ∧ 1 ≤ 1 ∧
        1024 ≤ ((p.tone 0).tc.toNat + (p.bph.toNat + 1 * (0x08000000#32).toNat) / 2 ^ 24) % 2048) := by
  decide

/-- NoCrossingBeforeTheThreshold: the last tick before each threshold; PeriodicSeedRotates: the last shift of sixteen. -/
theorem witness_no_crossing :
    (PsgCore.reset.tone 0).tc = 0#11 ∧ (PsgCore.reset.tone 0).edge = false ∧ 1023 < 1024 ∧
      PsgCore.reset.noise.nc = 0#9 ∧ 255 < 256 ∧ 15 < 16 := by
  decide

/-- MixersSumTheAccumulators, AccumulatorsAddThenHalve: the largest accumulators rule R31 admits. -/
theorem witness_mixers :
    (withAccs PsgCore.reset 254#16 254#16 254#16 254#16).accBounded ∧
      (withAccs PsgCore.reset 254#16 254#16 254#16 254#16).stereo = 0xFF#8 :=
  ⟨fun c => by fin_cases c <;> decide, rfl⟩

/-- SampleRunsTheTicksOfItsPath: a machine on each path. -/
theorem witness_paths : (machine []).cfg.q = 0#8 ∧ (accurate []).cfg.q ≠ 0#8 := by decide

/-- AccurateSampleEndsByItsTest, StepKeepsTheInvariants: the invariants on the accurate path, where a step answers. -/
theorem witness_invariants :
    (accurate [0x66#8]).Inv ∧ (accurate [0x66#8]).cfg.q ≠ 0#8 ∧ ∃ t, step (accurate [0x66#8]) = .next t :=
  ⟨⟨by decide, by decide, fun c => by fin_cases c <;> decide, .inl rfl, fun _ => by decide,
      ⟨rfl, rfl, rfl, rfl⟩, by unfold State.cursorInStream; decide, ⟨by decide, by decide, by decide, by decide⟩, by
        unfold State.chipTimeBounded
        rw [if_neg (by decide)]
        decide⟩,
    by decide, _, rfl⟩

/-- SilenceAfterReset. -/
theorem witness_silence :
    (machine []).host = [] ∧ ∀ c : Fin 4, (machine []).psg.att c = 15#4 ∧ (machine []).psg.acc c = 0#16 :=
  ⟨rfl, fun c => by fin_cases c <;> exact ⟨rfl, rfl⟩⟩

/-- ConstructGivesTheResetTable: legal arguments, the first command in the last place of the stream. -/
theorem witness_construct :
    let p : Params := { params [0x66#8] with clkRaw := 0xC0369E99#32, qIn := 1#8, outModeIn := .stereo }
    Params.legal p = true ∧ p.dataOffset.toNat ≤ p.stream.length ∧ (0 : Nat) < p.stream.length := by
  decide

/-- HostResetTouchesOnlyThePsg: a `Reset()` alone, and one with a call behind it that is not yet due. -/
theorem witness_host_reset :
    ((machine []).withHostCalls [{ delay := 0, op := .reset }]).host = { delay := 0, op := .reset } :: [] ∧
      (let rest : List HostCall := [{ delay := 1, op := .setRate 48000#32 }]
      ((machine []).withHostCalls ({ delay := 0, op := .reset } :: rest)).host = { delay := 0, op := .reset } :: rest ∧
        ∀ c ∈ rest.head?, c.delay ≠ 0) := by
  decide

/-- SetRateRecomputesTheConstants: each path, a rate it admits and, on the fast path, one it refuses. -/
theorem witness_set_rate :
    (let s := (constructed { params [] with clkRaw := 3579545#32 }).withHostCalls [{ delay := 0, op := .setRate 873#32 }];
      s.host = [{ delay := 0, op := .setRate 873#32 }] ∧ s.cfg.q = 0#8 ∧
        configLegal s.cfg 873#32 s.stream.len = false ∧ configLegal s.cfg 874#32 s.stream.len = true) ∧
      (let s := (accurate []).withHostCalls [{ delay := 0, op := .setRate 1#32 }];
        s.host = [{ delay := 0, op := .setRate 1#32 }] ∧ s.cfg.q ≠ 0#8 ∧
          configLegal s.cfg 1#32 s.stream.len = true) := by
  decide

/-- HostCallActsBetweenSamples: a rate change after the first of two samples. -/
theorem witness_host_call :
    (machine []).host = [] ∧ 1 < 2 ∧ ∃ u, (HostOp.setRate 48000#32).apply (sampleAndEmit^[1] (machine [])) = some u :=
  ⟨rfl, by decide, _, rfl⟩

/-- StepNeverWritesStreamOrConfiguration, OutputOnlyGrows, StreamCannotReachHostRegisters, StepEndsOrAdvances: a step
that answers, with no host call pending, of a command that is no wait. -/
theorem witness_write_step :
    (machine [0x50#8, 0x90#8]).host = [] ∧ (∃ t, step (machine [0x50#8, 0x90#8]) = .next t) ∧
      hostTurn (machine [0x50#8, 0x90#8]) = some (machine [0x50#8, 0x90#8]) ∧
      decode (machine [0x50#8, 0x90#8]).fetchBytes = .ok (.wr 0x90#8, []) :=
  ⟨rfl, ⟨_, rfl⟩, rfl, by decide⟩

end Sys2Proof.Tests
end

section
/-! SUPPORT. Rule R6, the legality of a configuration, and rules R79, R80, the noise channel's tick: the numbers behind
the model's predicates, and the statements settled from them. -/

namespace Sys2Proof.Machine

/-! The legality of a configuration. -/

theorem effectiveRate_toNat (r : BitVec 32) : (effectiveRate r).toNat = if r.toNat = 0 then 44100 else r.toNat := by
  have hz : r = 0#32 ↔ r.toNat = 0 := BitVec.toNat_inj.symm
  simp only [effectiveRate, hz]
  split <;> rfl

/-- The check as a proposition: each path of the sample primitive has its own condition. -/
theorem configLegal_iff (cfg : ConfigRegs) (r : BitVec 32) (len : Nat) : configLegal cfg r len = true ↔
    cfg.clk ≠ 0#30 ∧ cfg.srw = 16#8 ∧ cfg.flags = 0#8 ∧
      (cfg.q = 0#8 → fastQuotient cfg.clk (effectiveRate r) < 2 ^ 32) ∧
      (cfg.q ≠ 0#8 → 16 ≤ cfg.clk.toNat) ∧ len < 2 ^ 32 := by
  simp only [configLegal, Bool.and_eq_true, Bool.or_eq_true, decide_eq_true_eq, and_assoc, or_iff_not_imp_left,
    ne_eq, not_not]

theorem step_of_illegal {s : State} (hr : s.csd.status = .run) (hl : s.configLegal = false) :
    step s = .refused .configurationRefused := by
  simp [step, hr, hl]

theorem construct_of_illegal {p : Params} (hl : Params.legal p = false) :
    construct p = .refused .configurationRefused := by
  simp [construct, hl]

/-- Settles O15: the check read off as numbers, and a refusal wherever it is false. -/
theorem illegalConfigurationIsRefused : Obligations.IllegalConfigurationIsRefused := by
  refine ⟨fun cfg r len => ?_, fun _ => step_of_illegal, fun _ => construct_of_illegal⟩
  rw [configLegal_iff, fastQuotient, effectiveRate_toNat]
  simp only [ne_eq, ← BitVec.toNat_inj, BitVec.reduceToNat]

/-! The noise channel's tick. -/

/-- The feedback bit by counting: in white mode the tapped bits set in the seed are odd in number (rules R7, R80). -/
theorem feedbackBit_eq_count (mode : NoiseMode) (fb seed : BitVec 16) :
    feedbackBit mode fb seed = if mode = .white then
      decide ((List.range 16).countP (fun b => seed.getLsbD b && fb.getLsbD b) % 2 = 1) else seed.getLsbD 0 := by
  cases mode with
  | periodic => rfl
  | white => simp only [feedbackBit, parity16_eq_count, BitVec.getLsbD_and, if_true]

/-- What a crossing subtracts, at the counter's 9 bits: only `NP` is clamped, and `TP[2]` loses its top bit (R79). -/
theorem noiseSubtrahend_toNat (tp2 : BitVec 10) (z : Noise) :
    (noiseSubtrahend tp2 z).toNat = (if z.nref = true then tp2.toNat else max z.np.toNat 1) % 512 := by
  have hnp := z.np.isLt
  have hz : z.np = 0#9 ↔ z.np.toNat = 0 := BitVec.toNat_inj.symm
  simp only [noiseSubtrahend, hz]
  split
  · exact BitVec.toNat_setWidth 9 tp2
  · split
    · next h => simp [h]
    · omega

/-- The 9-bit difference is the integer one modulo 512, even where the subtrahend was cut to 9 bits. -/
theorem toNat_sub_eq_intMod {a b : BitVec 9} {m : Nat} (hb : b.toNat = m % 512) :
    ((a - b).toNat : Int) = ((a.toNat : Int) - m) % 512 := by
  have ha := a.isLt
  rw [BitVec.toNat_sub, hb]
  omega

/-- Settles O34: by whether the counter crosses 256, with the subtrahend and the feedback bit as numbers. -/
theorem noiseCounterTick : Obligations.NoiseCounterTick := by
  intro fb binc p n c f sub z'
  refine ⟨fun hbelow => noiseStep_below fb p.tone2.tp n p.noise hbelow, fun hcross => ?_,
    tickNoise_np .., tickNoise_nmode .., tickNoise_nref .., tickNoise_att ..⟩
  obtain ⟨hnc, hseed⟩ := noiseStep_crossed fb p.tone2.tp n p.noise hcross
  have hc : (p.noise.nc + BitVec.ofNat 9 n).toNat = c := noiseCount p.noise.nc n
  have hf : feedbackBit p.noise.nmode fb p.noise.seed = f := feedbackBit_eq_count ..
  constructor
  · calc (z'.nc.toNat : Int)
      _ = ((p.noise.nc + BitVec.ofNat 9 n - noiseSubtrahend p.tone2.tp p.noise).toNat : Int) :=
        congrArg (fun x : BitVec 9 => (x.toNat : Int)) hnc
      _ = ((c : Int) - sub) % 512 := by
        rw [toNat_sub_eq_intMod (noiseSubtrahend_toNat p.tone2.tp p.noise), hc]
  · calc z'.seed.toNat
      _ = (shiftSeed p.noise.nmode fb p.noise.seed).toNat := congrArg BitVec.toNat hseed
      _ = p.noise.seed.toNat / 2 + (if f = true then 32768 else 0) := by rw [shiftSeed_toNat, hf]

end Sys2Proof.Machine
end

section
/-! SUPPORT. Rule R31, the invariants: of the PSG core, of the rate registers, of a whole state; the cases of a step by
the kind of command it runs; and that a step keeps the invariants. -/

namespace Sys2Proof.Machine

/-! The PSG core's part of the invariants. -/

/-- The invariants of rule R31 that speak of the PSG core, with the tap mask `fb` of its noise channel. -/
structure PsgCore.Sound (fb : BitVec 16) (p : PsgCore) : Prop where
  accBounded : p.accBounded
  noisePeriodLegal : p.noisePeriodLegal
  seedAlive : fb.getLsbD 0 = true → p.noise.seed ≠ 0#16
  panFixed : p.panFixed

theorem accBounded_iff (p : PsgCore) :
    p.accBounded ↔ (∀ i, (p.tone i).acc.toNat ≤ 254) ∧ p.noise.acc.toNat ≤ 254 := by
  simp [PsgCore.accBounded, Fin.forall_fin_succ, and_assoc]

theorem panFixed_iff (p : PsgCore) : p.panFixed ↔ (∀ i, (p.tone i).mute = false) ∧ p.stereo = 0xFF#8 := by
  simp [PsgCore.panFixed, Fin.forall_fin_succ, and_assoc]

theorem reset_sound (fb : BitVec 16) : PsgCore.reset.Sound fb where
  accBounded := (accBounded_iff _).2 ⟨by decide, by decide⟩
  noisePeriodLegal := .inl rfl
  seedAlive _ := by decide
  panFixed := ⟨rfl, rfl, rfl, rfl⟩

/-- A tick keeps the bound of the accumulators, each being smoothed once. -/
theorem advanceTick_accBounded (fb : BitVec 16) (binc : BitVec 32) {p : PsgCore} (h : p.accBounded) :
    (advanceTick fb binc p).accBounded := by
  obtain ⟨ht, hz⟩ := (accBounded_iff p).1 h
  refine (accBounded_iff _).2 ⟨fun i => ?_, ?_⟩
  · rw [advanceTick_tone, tickTone_acc]
    exact smooth_le _ _ _ (ht i)
  · rw [advanceTick_noise, tickNoise_acc]
    exact smooth_le _ _ _ hz

theorem advanceTick_sound (fb : BitVec 16) (binc : BitVec 32) {p : PsgCore} (h : p.Sound fb) :
    (advanceTick fb binc p).Sound fb where
  accBounded := advanceTick_accBounded fb binc h.accBounded
  noisePeriodLegal := by simpa [PsgCore.noisePeriodLegal] using h.noisePeriodLegal
  seedAlive hfb := by
    have hseed := h.seedAlive hfb
    rw [advanceTick_noise, tickNoise_seed]
    rcases noiseStep_seed_cases fb p.tone2.tp (phaseTicks p.bph binc) p.noise with e | e <;> rw [e]
    · exact hseed
    · exact shiftSeed_ne_zero _ _ _ hfb hseed
  panFixed := by simpa [panFixed_iff] using h.panFixed

theorem classPeriod_cases (k : BitVec 2) (hk : k ≠ 3#2) :
    classPeriod k = 32#9 ∨ classPeriod k = 64#9 ∨ classPeriod k = 128#9 := by
  revert k; decide

/-- The noise control keeps `NP` or sets it to the period of a class (rule R74). -/
theorem control_np_cases (c : BitVec 3) (z : Noise) :
    (z.control c).np = z.np ∨ (z.control c).np = 32#9 ∨ (z.control c).np = 64#9 ∨ (z.control c).np = 128#9 := by
  unfold Noise.control
  split
  · exact .inl rfl
  · next hk => exact .inr (classPeriod_cases _ hk)

theorem control_seed (c : BitVec 3) (z : Noise) : (z.control c).seed = 0x8000#16 := by
  unfold Noise.control; split <;> rfl

theorem PsgWritten.sound {fb : BitVec 16} {p q : PsgCore} (hw : PsgWritten p q) (h : p.Sound fb) : q.Sound fb where
  accBounded := by
    obtain ⟨ht, hz⟩ := (accBounded_iff p).1 h.accBounded
    refine (accBounded_iff q).2 ⟨fun i => ?_, ?_⟩
    · obtain ⟨-, -, -, hacc⟩ := hw.tone i
      rw [hacc]; exact ht i
    · rw [hw.noise.keeps.2]; exact hz
  noisePeriodLegal := by
    have hnp := h.noisePeriodLegal
    unfold PsgCore.noisePeriodLegal at hnp ⊢
    rcases hw.noise with ⟨d, e⟩ | ⟨c, e⟩ <;> rw [e]
    · exact hnp
    · rcases control_np_cases c p.noise with e | e | e | e <;> rw [e]
      · exact hnp
      all_goals decide
  seedAlive hfb := by
    rcases hw.noise with ⟨d, e⟩ | ⟨c, e⟩ <;> rw [e]
    · exact h.seedAlive hfb
    · rw [control_seed]; decide
  panFixed := by
    obtain ⟨hm, hs⟩ := (panFixed_iff p).1 h.panFixed
    refine (panFixed_iff q).2 ⟨fun i => ?_, hw.stereo.trans hs⟩
    obtain ⟨-, -, hmute, -⟩ := hw.tone i
    exact hmute.trans (hm i)

theorem sampleAndEmit_sound {s : State} (h : s.psg.Sound s.cfg.fb) : (sampleAndEmit s).psg.Sound s.cfg.fb := by
  obtain ⟨k, hk⟩ := sampleAndEmit_ticks s
  rw [hk]
  exact Function.Iterate.rec (PsgCore.Sound s.cfg.fb) h (fun _ => advanceTick_sound s.cfg.fb s.src.binc) k

/-! The rate registers' part of the invariants. -/

/-- The invariants of rule R31 that speak of the rate registers, under the configuration `cfg`. -/
structure RateRegs.Sound (cfg : ConfigRegs) (x : RateRegs) : Prop where
  rate : x.rate ≠ 0#32
  binc : x.binc = bincOf cfg.clk x.rate cfg.q
  rstep : x.rstep = rstepOf x.rate cfg.q
  cstep : x.cstep = cstepOf cfg.clk cfg.q
  fast : cfg.q = 0#8 → x.ctime = 0#32
  accurate : cfg.q ≠ 0#8 → 32 ≤ x.cstep.toNat ∧ x.ctime.toNat < x.cstep.toNat

/-- Decision D15: `CSTEP` does not depend on the rate and `CTIME` is kept, so chip time keeps its bound. -/
theorem forRate_sound {cfg : ConfigRegs} {x : RateRegs} (r : BitVec 32) (h : x.Sound cfg) :
    (x.forRate cfg r).Sound cfg where
  rate := effectiveRate_ne_zero r
  binc := rfl
  rstep := rfl
  cstep := rfl
  fast := h.fast
  accurate hq := by
    have ha := h.accurate hq
    rw [h.cstep] at ha
    exact ha

/-- Rules R90, R94: from a chip time less than one chip tick ahead, the loop runs just as many ticks as reach the
output time, at most `2^26`, and leaves chip time less than one chip tick ahead. -/
theorem accurateTicks_spec (fb : BitVec 16) {x : RateRegs} (p : PsgCore) (hr : x.rstep.toNat ≤ 2 ^ 31)
    (hc : 32 ≤ x.cstep.toNat) (hc' : x.cstep.toNat ≤ 2 ^ 31) (ht : x.ctime.toNat < x.cstep.toNat) : ∃ k,
    (accurateTicks fb x p).2 = (advanceTick fb x.binc)^[k] p ∧
    (accurateTicks fb x p).1.toNat + x.rstep.toNat = x.ctime.toNat + k * x.cstep.toNat ∧
    (∀ j, j < k → x.ctime.toNat + j * x.cstep.toNat < x.rstep.toNat) ∧
    (accurateTicks fb x p).1.toNat < x.cstep.toNat ∧ k ≤ 2 ^ 26 := by
  obtain ⟨k, hticks, htime, hreached, hbefore⟩ :=
    accurateLoop_spec fb x hr (by omega) hc' x.rstep.toNat x.ctime p (by omega)
  have hsub : (accurateTicks fb x p).1.toNat =
      (accurateLoop fb x x.rstep.toNat x.ctime p).1.toNat - x.rstep.toNat :=
    BitVec.toNat_sub_of_le (BitVec.le_def.2 hreached)
  refine ⟨k, hticks, by omega, hbefore, ?_⟩
  cases k with
  | zero => omega
  | succ k =>
    have hlast := hbefore k (Nat.lt_succ_self k)
    have hk : k * 32 ≤ k * x.cstep.toNat := Nat.mul_le_mul_left k hc
    rw [Nat.succ_mul] at htime
    omega

theorem sampleAndEmit_src_fast {s : State} (hq : s.cfg.q = 0#8) : (sampleAndEmit s).src = s.src := by
  simp [sampleAndEmit, sampleTicks, hq]

theorem sampleAndEmit_src_accurate {s : State} (hq : s.cfg.q ≠ 0#8) :
    (sampleAndEmit s).src = { s.src with ctime := (accurateTicks s.cfg.fb s.src s.psg).1 } := by
  simp [sampleAndEmit, sampleTicks, hq]

theorem sampleAndEmit_psg_accurate {s : State} (hq : s.cfg.q ≠ 0#8) :
    (sampleAndEmit s).psg = (accurateTicks s.cfg.fb s.src s.psg).2 := by
  simp [sampleAndEmit, sampleTicks, hq]

/-- The bounds of rule R94 hold of sound rate registers on the accurate path, so its loop ends by its own test. -/
theorem accurateTicks_spec_of_sound {cfg : ConfigRegs} {x : RateRegs} (h : x.Sound cfg) (hq : cfg.q ≠ 0#8)
    (p : PsgCore) : ∃ k,
    (accurateTicks cfg.fb x p).2 = (advanceTick cfg.fb x.binc)^[k] p ∧
    (accurateTicks cfg.fb x p).1.toNat + x.rstep.toNat = x.ctime.toNat + k * x.cstep.toNat ∧
    (∀ j, j < k → x.ctime.toNat + j * x.cstep.toNat < x.rstep.toNat) ∧
    (accurateTicks cfg.fb x p).1.toNat < x.cstep.toNat ∧ k ≤ 2 ^ 26 := by
  obtain ⟨hc, ht⟩ := h.accurate hq
  exact accurateTicks_spec cfg.fb p (h.rstep ▸ rstepOf_le _ _) hc (h.cstep ▸ cstepOf_le _ _) ht

theorem sampleAndEmit_src_sound {s : State} (h : s.src.Sound s.cfg) : (sampleAndEmit s).src.Sound s.cfg := by
  by_cases hq : s.cfg.q = 0#8
  · rw [sampleAndEmit_src_fast hq]; exact h
  · obtain ⟨k, -, -, -, hahead, -⟩ := accurateTicks_spec_of_sound h hq s.psg
    rw [sampleAndEmit_src_accurate hq]
    exact ⟨h.rate, h.binc, h.rstep, h.cstep, fun hq' => absurd hq' hq, fun _ => ⟨(h.accurate hq).1, hahead⟩⟩

/-! The invariants of a state. -/

theorem chipTimeBounded_iff (s : State) : s.chipTimeBounded ↔
    (s.cfg.q = 0#8 → s.src.ctime = 0#32) ∧
      (s.cfg.q ≠ 0#8 → 32 ≤ s.src.cstep.toNat ∧ s.src.ctime.toNat < s.src.cstep.toNat) := by
  by_cases hq : s.cfg.q = 0#8 <;> simp [State.chipTimeBounded, hq]

/-- The invariants, by the part of the state each speaks of. -/
theorem inv_iff (s : State) : s.Inv ↔
    s.configLegal = true ∧ s.stream.wf = true ∧ s.psg.Sound s.cfg.fb ∧ s.src.Sound s.cfg ∧ s.cursorInStream := by
  constructor
  · intro h
    obtain ⟨hrate, hbinc, hrstep, hcstep⟩ := h.stepConstants
    obtain ⟨hfast, haccurate⟩ := (chipTimeBounded_iff s).1 h.chipTimeBounded
    exact ⟨h.legal, h.streamWf, ⟨h.accBounded, h.noisePeriodLegal, h.seedAlive, h.panFixed⟩,
      ⟨hrate, hbinc, hrstep, hcstep, hfast, haccurate⟩, h.cursorInStream⟩
  · rintro ⟨hlegal, hwf, hpsg, hsrc, hcur⟩
    exact ⟨hlegal, hwf, hpsg.accBounded, hpsg.noisePeriodLegal, hpsg.seedAlive, hpsg.panFixed, hcur,
      ⟨hsrc.rate, hsrc.binc, hsrc.rstep, hsrc.cstep⟩, (chipTimeBounded_iff s).2 ⟨hsrc.fast, hsrc.accurate⟩⟩

/-- The host's due calls keep the invariants. -/
theorem hostTurn_inv {s t : State} (h : s.Inv) (ht : hostTurn s = some t) : t.Inv := by
  obtain ⟨hlegal, hwf, hpsg, hsrc, hcur⟩ := (inv_iff s).1 h
  have ha := hostTurn_acted ht
  refine (inv_iff t).2 ⟨hostTurn_configLegal hlegal ht, by rw [ha.stream]; exact hwf, ?_, ?_, ?_⟩
  · rw [ha.cfg]
    rcases ha.psg with e | e <;> rw [e]
    · exact hpsg
    · exact reset_sound _
  · rw [ha.cfg]
    rcases ha.src with e | ⟨r, -, e⟩ <;> rw [e]
    · exact hsrc
    · exact forRate_sound r hsrc
  · rw [State.cursorInStream, ha.csd, ha.stream]; exact hcur

/-- A sample keeps the invariants. -/
theorem sampleAndEmit_inv {s : State} (h : s.Inv) : (sampleAndEmit s).Inv := by
  obtain ⟨hlegal, hwf, hpsg, hsrc, hcur⟩ := (inv_iff s).1 h
  have hs := sampleAndEmit_sampled s
  have hrate : (sampleAndEmit s).src.rate = s.src.rate := by rw [hs.src]
  refine (inv_iff _).2 ⟨?_, ?_, ?_, ?_, ?_⟩
  · rw [State.configLegal, hs.cfg, hs.stream, hrate]; exact hlegal
  · rw [hs.stream]; exact hwf
  · rw [hs.cfg]; exact sampleAndEmit_sound hpsg
  · rw [hs.cfg]; exact sampleAndEmit_src_sound hsrc
  · rw [State.cursorInStream, hs.csd, hs.stream]; exact hcur

/-- A wait keeps the invariants, whatever the host does in it. -/
theorem genSamples_inv {n : Nat} {s t : State} (h : s.Inv) (ht : genSamples n s = some t) : t.Inv :=
  genSamples_induction (P := State.Inv) (fun _ _ => hostTurn_inv) (fun _ => sampleAndEmit_inv) n s t h ht

/-- Only `CUR` of the decoder's registers stands in the invariants. -/
theorem inv_of_csd {s t : State} (h : s.Inv) (ht : t = { s with csd := t.csd }) (hc : t.cursorInStream) : t.Inv := by
  obtain ⟨hlegal, hwf, hpsg, hsrc, -⟩ := (inv_iff s).1 h
  rw [ht] at hc ⊢
  exact (inv_iff _).2 ⟨hlegal, hwf, hpsg, hsrc, hc⟩

/-! The cases of a step. -/

/-- The wait commands, with their count of samples and their length in bytes (rules R56 to R58). -/
def WaitForm (i : Instr) (n len : Nat) : Prop :=
  i = .wait n ∧ len = 3 ∨ i = .wait735 ∧ n = 735 ∧ len = 1 ∨ i = .waits n ∧ len = 1

/-- What the command at the cursor makes of a state, the host having acted: a fault, a write, a wait or the halt. -/
inductive CommandRan (s : State) : State → Prop
  | fault (e : DecodeError) : CommandRan s (raiseDecodeError e s)
  | write (dd : Byte) (inside : s.csd.cur.toNat + 2 ≤ s.stream.len) : CommandRan s (writeCommand (psgWrite dd) s)
  | wait {i : Instr} {rest : List Byte} {n len : Nat} {u : State} (fetched : decode s.fetchBytes = .ok (i, rest))
      (form : WaitForm i n len) (advances : 0 < len) (inside : s.csd.cur.toNat + len ≤ s.stream.len)
      (samples : genSamples n s = some u) : CommandRan s (retire len u)
  | halt (inside : s.csd.cur.toNat + 1 ≤ s.stream.len) : CommandRan s (haltRun (retire 1 s))

/-- A wait lies inside the stream, with all its bytes. -/
theorem WaitForm.inside {s : State} {i : Instr} {rest : List Byte} {n len : Nat}
    (hd : decode s.fetchBytes = .ok (i, rest)) (hf : WaitForm i n len) :
    0 < len ∧ s.csd.cur.toNat + len ≤ s.stream.len := by
  have hin := fetched_inside hd
  rcases hf with ⟨rfl, rfl⟩ | ⟨rfl, -, rfl⟩ | ⟨rfl, rfl⟩ <;> simpa using hin

/-- A step is the host's due calls, then one command. -/
theorem step_ran {s t : State} (h : step s = .next t) :
    s.configLegal = true ∧ ∃ s', hostTurn s = some s' ∧ CommandRan s' t := by
  obtain ⟨-, hl, s', hs', ⟨e, -, rfl⟩ | ⟨i, rest, hd, hx⟩⟩ := step_cases h
  · exact ⟨hl, s', hs', .fault e⟩
  · refine ⟨hl, s', hs', ?_⟩
    have hin := fetched_inside hd
    rcases exec_stream_cases (decode_level hd) hx with ⟨dd, rfl, rfl⟩ | ⟨n, len, u, hf, hu, rfl⟩ | ⟨rfl, rfl⟩
    · exact .write dd (by simpa using hin)
    · obtain ⟨hlen, hcur⟩ := WaitForm.inside hd hf
      exact .wait hd hf hlen hcur hu
    · exact .halt (by simpa using hin)

@[simp] theorem raiseDecodeError_cfg (e : DecodeError) (s : State) : (raiseDecodeError e s).cfg = s.cfg := by
  rw [raiseDecodeError_keeps]
@[simp] theorem raiseDecodeError_src (e : DecodeError) (s : State) : (raiseDecodeError e s).src = s.src := by
  rw [raiseDecodeError_keeps]
@[simp] theorem raiseDecodeError_psg (e : DecodeError) (s : State) : (raiseDecodeError e s).psg = s.psg := by
  rw [raiseDecodeError_keeps]
@[simp] theorem raiseDecodeError_outRev (e : DecodeError) (s : State) : (raiseDecodeError e s).outRev = s.outRev := by
  rw [raiseDecodeError_keeps]
@[simp] theorem raiseDecodeError_stream (e : DecodeError) (s : State) : (raiseDecodeError e s).stream = s.stream := by
  rw [raiseDecodeError_keeps]

/-- A cursor moved on inside the stream of a legal machine is where it says (rule R26). -/
theorem cursorInStream_add {s t : State} {k : Nat} (hl : s.configLegal = true) (hs : t.stream = s.stream)
    (hc : t.csd.cur = s.csd.cur + BitVec.ofNat 32 k) (hin : s.csd.cur.toNat + k ≤ s.stream.len) : t.cursorInStream := by
  rw [State.cursorInStream, hc, hs, cursor_add hin (configLegal_len hl)]
  exact hin

theorem CommandRan.inv {s t : State} (h : s.Inv) (hr : CommandRan s t) : t.Inv := by
  cases hr with
  | fault e =>
    refine inv_of_csd h (raiseDecodeError_keeps e s) ?_
    rw [State.cursorInStream, (raiseDecodeError_csd e s).2, raiseDecodeError_stream]
    exact h.cursorInStream
  | write dd inside =>
    obtain ⟨hlegal, hwf, hpsg, hsrc, -⟩ := (inv_iff s).1 h
    exact (inv_iff _).2 ⟨hlegal, hwf, (psgWrite_written dd s.psg).sound hpsg, hsrc,
      cursorInStream_add (k := 2) hlegal rfl rfl inside⟩
  | wait fetched form advances inside samples =>
    have hu := genSamples_inv h samples
    have hw := genSamples_ran _ _ _ samples
    refine inv_of_csd hu rfl (cursorInStream_add h.legal hw.stream ?_ inside)
    rw [retire_csd, hw.csd]
  | halt inside => exact inv_of_csd h rfl (cursorInStream_add (k := 1) h.legal rfl rfl inside)

/-- Settles O47: the host's due calls keep the invariants, and so does each kind of command. -/
theorem stepKeepsTheInvariants : Obligations.StepKeepsTheInvariants := by
  intro s t h hstep
  obtain ⟨-, s', hs', hr⟩ := step_ran hstep
  exact hr.inv (hostTurn_inv h hs')

end Sys2Proof.Machine
end

section
/-! SUPPORT. Rules R31, R76, R81, R83, R87, R88, R90: the accumulators, the mixers and the loop of the accurate path, as
numbers, and the statements settled from them. -/

namespace Sys2Proof.Machine

/-! The accumulators. -/

/-- A bounded accumulator loses nothing when the volume is added, as it is just where the channel is on. -/
theorem smooth_toNat_of_le {on : Bool} {P : Prop} [Decidable P] (hon : on = true ↔ P) (att : BitVec 4)
    {acc : BitVec 16} (h : acc.toNat ≤ 254) :
    (smooth on att acc).toNat = (acc.toNat + if P then volList.getD att.toNat 0 else 0) / 2 := by
  have hv := vol_le att
  simp only [smooth_toNat, hon, vol_toNat] at *
  split <;> rw [Nat.mod_eq_of_lt (by omega)]

theorem getLsbD_zero_iff (x : BitVec 16) : x.getLsbD 0 = true ↔ x.toNat % 2 = 1 := by
  rw [BitVec.getLsbD, Nat.testBit_zero, decide_eq_true_eq]

/-- Settles O33: a tick smooths each accumulator once, and the bound keeps the sum inside 16 bits. -/
theorem accumulatorsAddThenHalve : Obligations.AccumulatorsAddThenHalve := by
  intro fb binc p hp
  obtain ⟨ht, hz⟩ := (accBounded_iff p).1 hp
  refine ⟨fun i => ?_, ?_, advanceTick_accBounded fb binc hp⟩
  · rw [advanceTick_tone, tickTone_acc, tickTone_edge]
    exact smooth_toNat_of_le (by simp) _ (ht i)
  · rw [advanceTick_noise, tickNoise_acc, tickNoise_seed]
    exact smooth_toNat_of_le (getLsbD_zero_iff _) _ hz

/-! The mixers. -/

/-- A number in the lower half of the signed range is unchanged by the reduction. -/
theorem bmod_eq_self_of_lt {n m : Nat} (h : 2 * n < m) : Int.bmod (n : Int) m = n :=
  Int.bmod_eq_of_le (by omega) (by omega)

theorem mixMono_eq (p : PsgCore) : mixMono p = Int.bmod (accSum p : Nat) (2 ^ 16) := BitVec.toInt_ofNat' _

/-- With every bit of the mask set each ear gets every channel (rule R22). -/
theorem ears_of_full_mask {p : PsgCore} (h : p.stereo = 0xFF#8) : leftSum p = accSum p ∧ rightSum p = accSum p := by
  constructor <;> simp [leftSum, rightSum, enabledAcc, accSum, h]

/-- Settles O38: the reductions are balanced remainders, and sums of at most `4 * 254` are below the half. -/
theorem mixersSumTheAccumulators : Obligations.MixersSumTheAccumulators := by
  intro p a ear
  have hmono : mix .mono p = .mono (Int.bmod (accSum p : Nat) (2 ^ 16)) := congrArg Item.mono (mixMono_eq p)
  have hstereo : mix .stereo p =
      .stereo (Int.bmod (leftSum p : Nat) (2 ^ 32)) (Int.bmod (rightSum p : Nat) (2 ^ 32)) :=
    congrArg₂ Item.stereo (BitVec.toInt_ofNat' _) (BitVec.toInt_ofNat' _)
  refine ⟨hmono, hstereo, fun hp => ?_⟩
  have hsum : accSum p ≤ 4 * 254 := by
    have h0 := hp 0; have h1 := hp 1; have h2 := hp 2; have h3 := hp 3
    simp only [acc_zero, acc_one, acc_two, acc_three] at h0 h1 h2 h3
    unfold accSum
    omega
  refine ⟨hmono.trans (congrArg Item.mono (bmod_eq_self_of_lt (by omega))), fun hmask => ?_⟩
  obtain ⟨hl, hr⟩ := ears_of_full_mask hmask
  rw [hstereo, hl, hr, bmod_eq_self_of_lt (by omega)]
  rfl

/-! The accurate path. -/

/-- On the accurate path every `AdvanceTick` is one chip tick. -/
theorem phaseTicks_of_sound {cfg : ConfigRegs} {x : RateRegs} (h : x.Sound cfg) (hq : cfg.q ≠ 0#8) (bph : BitVec 24) :
    phaseTicks bph x.binc = 1 := by
  rw [h.binc, bincOf, if_neg hq]
  exact phaseTicks_one bph

/-- Settles O40: the loop's specification under the bounds that the invariants give. -/
theorem accurateSampleEndsByItsTest : Obligations.AccurateSampleEndsByItsTest := by
  intro s h hq
  obtain ⟨-, -, -, hsrc, -⟩ := (inv_iff s).1 h
  obtain ⟨k, hticks, htime, hbefore, hahead, hk⟩ := accurateTicks_spec_of_sound hsrc hq s.psg
  refine ⟨k, ?_, phaseTicks_of_sound hsrc hq, ?_, hbefore, ?_, hk, sampleAndEmit_outRev s⟩
  · rw [sampleAndEmit_psg_accurate hq]; exact hticks
  · rw [sampleAndEmit_src_accurate hq]; exact htime
  · rw [sampleAndEmit_src_accurate hq]; exact hahead

end Sys2Proof.Machine
end

section
/-! SUPPORT. What a step keeps, whatever the command (rules R10, R28, R34, R43, R105, R118), and how the cursor moves
(rules R26, R62): the cases of a command, and the statements settled from them. -/

namespace Sys2Proof.Machine

/-- No command writes the configuration or the stream. -/
theorem CommandRan.cfg_stream {s t : State} (hr : CommandRan s t) : t.cfg = s.cfg ∧ t.stream = s.stream := by
  cases hr with
  | fault e => exact ⟨raiseDecodeError_cfg e s, raiseDecodeError_stream e s⟩
  | write dd inside => exact ⟨rfl, rfl⟩
  | wait fetched form advances inside samples =>
    have hw := genSamples_ran _ _ _ samples
    exact ⟨hw.cfg, hw.stream⟩
  | halt inside => exact ⟨rfl, rfl⟩

/-- Settles O48: neither the host's due calls nor a command writes them. -/
theorem stepNeverWritesStreamOrConfiguration : Obligations.StepNeverWritesStreamOrConfiguration := by
  intro s t hstep
  obtain ⟨-, s', hs', hr⟩ := step_ran hstep
  have ha := hostTurn_acted hs'
  obtain ⟨hcfg, hstream⟩ := hr.cfg_stream
  rw [hcfg, hstream, ha.cfg, ha.stream]
  exact ⟨rfl, rfl, fun _ => rfl⟩

/-- A command leaves `OUT` alone, or it is a wait and appends to it. -/
theorem CommandRan.out_cases {s t : State} (hr : CommandRan s t) : t.out = s.out ∨
    ∃ i rest n len items, decode s.fetchBytes = .ok (i, rest) ∧ WaitForm i n len ∧ t.out = s.out ++ items := by
  cases hr with
  | fault e => exact .inl (out_congr (raiseDecodeError_outRev e s))
  | write dd inside => exact .inl rfl
  | wait fetched form advances inside samples =>
    obtain ⟨⟨items, hout, -⟩, -⟩ := waited_of samples
    exact .inr ⟨_, _, _, _, items, fetched, form, hout⟩
  | halt inside => exact .inl rfl

/-- Settles O49: the host leaves `OUT` alone, and of the commands only a wait appends to it. -/
theorem outputOnlyGrows : Obligations.OutputOnlyGrows := by
  intro s t hstep
  obtain ⟨-, s', hs', hr⟩ := step_ran hstep
  rw [← out_congr (hostTurn_acted hs').outRev]
  rcases hr.out_cases with hout | ⟨i, rest, n, len, items, hd, hf, hout⟩
  · exact ⟨⟨[], by rw [hout, List.append_nil]⟩, fun _ _ _ _ _ _ _ _ => hout⟩
  · refine ⟨⟨items, hout⟩, fun s'' i' rest' hs'' hd' hwait hwaits hwait735 => ?_⟩
    obtain rfl : s' = s'' := Option.some.inj (hs'.symm.trans hs'')
    obtain ⟨rfl, -⟩ : i = i' ∧ rest = rest' := by simpa [hd] using hd'
    rcases hf with ⟨hi, -⟩ | ⟨hi, -⟩ | ⟨hi, -⟩
    · exact absurd hi (hwait n)
    · exact absurd hi hwait735
    · exact absurd hi (hwaits n)

/-! The registers that only the host reaches. -/

/-- The registers that rule R105 keeps from the stream: the mute bits, the mask, the rate and the step constants, the
configuration. -/
structure SameHostRegisters (s t : State) : Prop where
  mute : ∀ i, (t.psg.tone i).mute = (s.psg.tone i).mute
  stereo : t.psg.stereo = s.psg.stereo
  src : sameStepConstants s.src t.src
  cfg : t.cfg = s.cfg

theorem SameHostRegisters.refl (s : State) : SameHostRegisters s s := ⟨fun _ => rfl, rfl, ⟨rfl, rfl, rfl, rfl⟩, rfl⟩

theorem SameHostRegisters.trans {s t u : State} (h : SameHostRegisters s t) (h' : SameHostRegisters t u) :
    SameHostRegisters s u := by
  obtain ⟨hrate, hbinc, hrstep, hcstep⟩ := h.src
  obtain ⟨hrate', hbinc', hrstep', hcstep'⟩ := h'.src
  exact ⟨fun i => (h'.mute i).trans (h.mute i), h'.stereo.trans h.stereo,
    ⟨hrate'.trans hrate, hbinc'.trans hbinc, hrstep'.trans hrstep, hcstep'.trans hcstep⟩, h'.cfg.trans h.cfg⟩

theorem samePsgSettings_mute {p q : PsgCore} (h : samePsgSettings p q) (i : Fin 3) :
    (q.tone i).mute = (p.tone i).mute := by
  obtain ⟨⟨-, -, h0⟩, ⟨-, -, h1⟩, ⟨-, -, h2⟩, -⟩ := h
  fin_cases i
  · exact h0
  · exact h1
  · exact h2

theorem samePsgSettings_stereo {p q : PsgCore} (h : samePsgSettings p q) : q.stereo = p.stereo := by
  obtain ⟨-, -, -, -, -, -, -, -, hstereo⟩ := h
  exact hstereo

theorem sampleAndEmit_sameHostRegisters (s : State) : SameHostRegisters s (sampleAndEmit s) := by
  have hs := sampleAndEmit_sampled s
  have hp := sampleAndEmit_settings s
  refine ⟨samePsgSettings_mute hp, samePsgSettings_stereo hp, ?_, hs.cfg⟩
  rw [hs.src]
  exact ⟨rfl, rfl, rfl, rfl⟩

/-- A wait in which the host does nothing is samples only, and they do not reach the host's registers. -/
theorem genSamples_sameHostRegisters {n : Nat} {s t : State} (hn : s.host = []) (h : genSamples n s = some t) :
    SameHostRegisters s t := by
  obtain rfl : sampleAndEmit^[n] s = t := Option.some.inj ((genSamples_of_nil n s hn).symm.trans h)
  exact Function.Iterate.rec (SameHostRegisters s) (.refl s)
    (fun u hu => hu.trans (sampleAndEmit_sameHostRegisters u)) n

theorem CommandRan.sameHostRegisters {s t : State} (hn : s.host = []) (hr : CommandRan s t) :
    SameHostRegisters s t := by
  cases hr with
  | fault e => rw [raiseDecodeError_keeps]; exact ⟨fun _ => rfl, rfl, ⟨rfl, rfl, rfl, rfl⟩, rfl⟩
  | write dd inside =>
    have hw := psgWrite_written dd s.psg
    refine ⟨fun i => ?_, hw.stereo, ⟨rfl, rfl, rfl, rfl⟩, rfl⟩
    obtain ⟨-, -, hmute, -⟩ := hw.tone i
    exact hmute
  | wait fetched form advances inside samples =>
    obtain ⟨hmute, hstereo, hsrc, hcfg⟩ := genSamples_sameHostRegisters hn samples
    exact ⟨hmute, hstereo, hsrc, hcfg⟩
  | halt inside => exact ⟨fun _ => rfl, rfl, ⟨rfl, rfl, rfl, rfl⟩, rfl⟩

/-- Settles O50: with no call pending the host leaves the state as it is, and no command reaches its registers. -/
theorem streamCannotReachHostRegisters : Obligations.StreamCannotReachHostRegisters := by
  intro s t hn hstep
  obtain ⟨-, s', hs', hr⟩ := step_ran hstep
  obtain rfl : s = s' := Option.some.inj ((hostTurn_of_nil hn).symm.trans hs')
  obtain ⟨hmute, hstereo, hsrc, hcfg⟩ := hr.sameHostRegisters hn
  exact ⟨hmute, hstereo, hsrc, hcfg⟩

/-! The cursor. -/

/-- A command of a legal machine ends the run or moves the cursor on, inside the stream. -/
theorem CommandRan.ends_or_advances {s t : State} (hl : s.configLegal = true) (hr : CommandRan s t) :
    t.ended = true ∨ (s.csd.cur.toNat < t.csd.cur.toNat ∧ t.csd.cur.toNat ≤ s.stream.len) := by
  have hlen := configLegal_len hl
  cases hr with
  | fault e => left; simp [State.ended]
  | write dd inside =>
    have hcur : (writeCommand (psgWrite dd) s).csd.cur.toNat = s.csd.cur.toNat + 2 := cursor_add inside hlen
    omega
  | @wait i rest n len u fetched form advances inside samples =>
    have hcur : (retire len u).csd.cur.toNat = s.csd.cur.toNat + len := by
      rw [retire_csd, (genSamples_ran _ _ _ samples).csd]
      exact cursor_add inside hlen
    omega
  | halt inside => exact .inl rfl

/-- Settles O51: the host moves neither the cursor nor the stream, and each command ends the run or advances. -/
theorem stepEndsOrAdvances : Obligations.StepEndsOrAdvances := by
  intro s t hstep
  obtain ⟨hl, s', hs', hr⟩ := step_ran hstep
  have ha := hostTurn_acted hs'
  rw [← ha.csd, ← ha.stream]
  exact hr.ends_or_advances (hostTurn_configLegal hl hs')

end Sys2Proof.Machine
end

section
/-! SUPPORT. Rules R30, R111, R112: what `Construct` leaves, and what a due `Reset()` does. -/

namespace Sys2Proof.Machine

/-! Construction. -/

theorem constructed_src_sound {p : Params} (hl : Params.legal p = true) :
    (constructed p).src.Sound (Params.configRegs p) where
  rate := effectiveRate_ne_zero _
  binc := rfl
  rstep := rfl
  cstep := rfl
  fast _ := rfl
  accurate hq := by
    have hc : 32 ≤ (constructed p).src.cstep.toNat := cstepOf_ge _ _ hq (configLegal_clk hl hq)
    exact ⟨hc, Nat.lt_of_lt_of_le (Nat.succ_pos 31) hc⟩

/-- `Construct` establishes the invariants, where the first command lies in the stream (log entry 13). -/
theorem constructed_inv {p : Params} (hl : Params.legal p = true) (ho : p.dataOffset.toNat ≤ p.stream.length) :
    (constructed p).Inv :=
  (inv_iff _).2 ⟨(configLegal_effectiveRate _ _ _).trans hl, stream_ofBytes_wf _, reset_sound _,
    constructed_src_sound hl, ho⟩

theorem construct_of_legal {p : Params} (hl : Params.legal p = true) : construct p = .next (constructed p) := by
  simp [construct, hl]

/-- The clock and its flags are the two parts of `CLK_RAW`, as numbers. -/
theorem configRegs_clk (p : Params) : (Params.configRegs p).clk.toNat = p.clkRaw.toNat % 2 ^ 30 ∧
    (Params.configRegs p).clkFlags.toNat = p.clkRaw.toNat / 2 ^ 30 := by
  have h := p.clkRaw.isLt
  simp only [Params.configRegs, BitVec.extractLsb'_toNat, Nat.shiftRight_eq_div_pow]
  omega

/-- The stream a byte sequence is reads back as the sequence. -/
theorem getElem?_eq_read_ofBytes (bs : List Byte) {a : Nat} (ha : a < bs.length) :
    bs[a]? = some ((Stream.ofBytes bs).read a) := by
  rw [Stream.read, Stream.ofBytes, read_ofBytes 0 bs a (Nat.zero_le a)]
  simp [ha]

/-- Settles O42: register by register; the two fixed registers by the legality of the arguments. -/
theorem constructGivesTheResetTable : Obligations.ConstructGivesTheResetTable := by
  intro p hl
  obtain ⟨-, hsrw, hflags, -⟩ := (configLegal_iff _ _ _).1 hl
  obtain ⟨hclk, hclkFlags⟩ := configRegs_clk p
  have hsrc := constructed_src_sound hl
  refine ⟨constructed p, construct_of_legal hl, hclk, hclkFlags, rfl, hsrw, hflags, rfl, rfl, rfl,
    ⟨hsrc.rate, hsrc.binc, hsrc.rstep, hsrc.cstep⟩, rfl, fun i => ?_, rfl, rfl, rfl, rfl, rfl, rfl, rfl,
    fun _ ha => getElem?_eq_read_ofBytes _ ha, constructed_inv hl⟩
  fin_cases i <;> rfl

/-- Settles O46: the state after reset is a constructed one, of legal arguments. -/
theorem resetMeetsTheInvariants : Obligations.ResetMeetsTheInvariants := by
  have h : State.reset = constructed Config.resetParams := by decide
  rw [Obligations.ResetMeetsTheInvariants, h]
  exact constructed_inv (by decide) (by decide)

/-! The host's `Reset()`. -/

/-- Where the next call is not yet due the host leaves the state as it is. -/
theorem hostTurn_of_not_due {s : State} (h : ∀ c ∈ s.host.head?, c.delay ≠ 0) : hostTurn s = some s := by
  cases hh : s.host with
  | nil => exact hostTurn_of_nil hh
  | cons c rest =>
    have hc : c.delay ≠ 0 := h c (by simp [hh])
    rw [hostTurn, hh, runDue, if_neg hc, ← hh]

/-- Settles O43: the due call leaves the reset PSG core, then the calls behind it have their turn. -/
theorem hostResetTouchesOnlyThePsg : Obligations.HostResetTouchesOnlyThePsg :=
  fun _ _ h => ⟨hostTurn_reset h, fun hrest => (hostTurn_reset h).trans (hostTurn_of_not_due hrest), rfl, rfl⟩

end Sys2Proof.Machine
end

section
/-! SUPPORT. Rules R34, R35, R44 to R47, R54: what the decoder sees at the cursor, the command and the operands it takes
from there, and what a step runs after a word has been placed. -/

namespace Sys2Proof.Machine

/-! The bytes at the cursor. -/

/-- Settles O8: the length and the bytes of the window at the cursor. -/
theorem fetchSeesTheStream : Obligations.FetchSeesTheStream := fun s =>
  ⟨window_length s.stream s.csd.cur.toNat 3, fun k => window_getElem s.stream s.csd.cur.toNat 3 k⟩

/-- Inside the stream the window begins with the byte at its index. -/
theorem window_succ_of_lt {st : Stream} {a : Nat} (n : Nat) (h : a < st.len) :
    st.window a (n + 1) = st.read a :: st.window (a + 1) n := if_pos h

theorem fetchBytes_of_one {s : State} (h : s.csd.cur.toNat < s.stream.len) :
    s.fetchBytes = s.stream.read s.csd.cur.toNat :: s.stream.window (s.csd.cur.toNat + 1) 2 :=
  window_succ_of_lt 2 h

theorem fetchBytes_of_two {s : State} (h : s.csd.cur.toNat + 2 ≤ s.stream.len) :
    s.fetchBytes = s.stream.read s.csd.cur.toNat :: s.stream.read (s.csd.cur.toNat + 1) ::
      s.stream.window (s.csd.cur.toNat + 2) 1 := by
  rw [fetchBytes_of_one (by omega), window_succ_of_lt 1 h]

theorem fetchBytes_of_three {s : State} (h : s.csd.cur.toNat + 3 ≤ s.stream.len) :
    s.fetchBytes = [s.stream.read s.csd.cur.toNat, s.stream.read (s.csd.cur.toNat + 1),
      s.stream.read (s.csd.cur.toNat + 2)] := by
  rw [fetchBytes_of_two (by omega), window_succ_of_lt 0 h, Stream.window]

/-- Settles O9: as many bytes as the command takes stand at the cursor, and the opcode byte selects the command. -/
theorem operandsComeFromTheStream : Obligations.OperandsComeFromTheStream := by
  intro s c op
  have opcode : ∀ v : Byte, op = v.toNat → s.stream.read c = v := fun _ => BitVec.eq_of_toNat_eq
  refine ⟨fun hop hc => ?_, fun hop hc => ?_, fun hop hc => ?_, fun hop hc => ?_, fun hop hc => ?_⟩
  · exact ⟨_, by rw [State.fetch, fetchBytes_of_two hc, opcode 0x50#8 hop, decode_wr]⟩
  · exact ⟨_, by rw [State.fetch, fetchBytes_of_three hc, opcode 0x61#8 hop, decode_wait, waitCount]⟩
  · have hnibble : (s.stream.read c).extractLsb' 4 4 = 0x7#4 := (high_nibble_seven _).2 (by omega)
    have hcount : waitsCount (s.stream.read c) = op % 16 + 1 := by
      rw [waitsCount_eq _ hnibble]
      omega
    exact ⟨_, by rw [State.fetch, fetchBytes_of_one hc, decode_waits _ _ hnibble, hcount]⟩
  · exact ⟨_, by rw [State.fetch, fetchBytes_of_one hc, opcode 0x62#8 hop, decode_wait735]⟩
  · exact ⟨_, by rw [State.fetch, fetchBytes_of_one hc, opcode 0x66#8 hop, decode_endOfStream]⟩

/-! The placing of a word. -/

/-- Bytes that follow a command do not change what it decodes to (rule R45). -/
theorem decode_append {bs rest : List Byte} {i : Instr} (h : decode bs = .ok (i, rest)) (bs' : List Byte) :
    decode (bs ++ bs') = .ok (i, rest ++ bs') := by
  rcases decode_ok_cases h with ⟨dd, rfl, rfl⟩ | ⟨lo, hi, rfl, rfl⟩ | ⟨rfl, rfl⟩ | ⟨rfl, rfl⟩ | ⟨op, hop, rfl, rfl⟩
  · exact decode_wr dd _
  · exact decode_wait lo hi _
  · exact decode_wait735 _
  · exact decode_endOfStream _
  · exact decode_waits op _ hop

/-- A WR command is the form its write byte decodes to (rules R55, R64; log entry 3). -/
theorem exec_wr_eq_exec_decodeWrite (dd : Byte) (s : State) : exec (.wr dd) s = exec (decodeWrite dd) s := by
  change Host.Outcome.next (retire 2 { s with psg := psgWrite dd s.psg, host := afterCoreOp s.host }) = _
  unfold psgWrite decodeWrite
  split
  · match (plAddr dd).toNat with
    | 0 | 1 | 2 | 3 | 4 | 5 | 6 | _ + 7 => rfl
  · rfl

/-- The bytes a table word is laid out in decode to a command that does what the word stands for (log entry 4). -/
theorem decode_tableLayout {nbits w : Nat} {i : Instr} (h : decodeTableWord nbits w = some i) :
    ∃ j rest, decode (tableLayout nbits w) = .ok (j, rest) ∧ ∀ s, exec j s = exec i s := by
  unfold decodeTableWord at h
  unfold tableLayout
  cases hd : decode (tableBytes nbits w) with
  | ok r =>
    obtain ⟨j, rest⟩ := r
    rw [hd] at h
    obtain rfl : j = i := Option.some.inj h
    exact ⟨j, rest, hd, fun _ => rfl⟩
  | error e =>
    simp only [hd] at h
    by_cases hw : w % 2 ^ nbits < 256
    · obtain rfl := Option.some.inj ((if_pos hw).symm.trans h)
      exact ⟨_, [], by rw [if_pos hw, decode_wr], exec_wr_eq_exec_decodeWrite _⟩
    · simp [hw] at h

theorem tableLayout_length_le (nbits w : Nat) : (tableLayout nbits w).length ≤ maxCommandLength := by
  unfold tableLayout
  split
  · exact le_rfl
  · split <;> simp [maxCommandLength, tableBytes]

/-- A window over bytes placed at its index begins with them. -/
theorem window_starts_with_placed {m : List Host.Cell} {bs : List Byte} {a n len : Nat} (hm : Memory.wf m = true)
    (hn : bs.length ≤ n) (hlen : a + bs.length ≤ len) :
    bs <+: Stream.window { mem := Memory.place m a bs, len := len } a n := by
  refine List.prefix_iff_getElem?.2 fun k hk => ?_
  rw [window_getElem _ a n k (by omega) (by dsimp only; omega), Stream.read, read_place a bs (a + k) hm]
  simp [hk]

theorem withFetchWord_fetchBytes {s : State} (hw : s.stream.wf = true) (nbits w : Nat) :
    tableLayout nbits w <+: (s.withFetchWord nbits w).fetchBytes := by
  obtain ⟨hm, -⟩ : Memory.wf s.stream.mem = true ∧ _ := by simpa [Stream.wf] using hw
  exact window_starts_with_placed hm (tableLayout_length_le nbits w) (le_max_right _ _)

/-- The placing keeps the configuration legal: it leaves room below `2^32` for the longest command (log entry 5). -/
theorem withFetchWord_configLegal {s : State} (h : s.configLegal = true) (nbits w : Nat) :
    (s.withFetchWord nbits w).configLegal = true := by
  obtain ⟨hclk, hsrw, hflags, hfast, haccurate, hlen⟩ := (configLegal_iff _ _ _).1 h
  refine (configLegal_iff _ _ _).2 ⟨hclk, hsrw, hflags, hfast, haccurate, max_lt hlen ?_⟩
  have hl := tableLayout_length_le nbits w
  split
  · omega
  · exact lt_of_le_of_lt (Nat.add_le_add_left hl _) (by decide)

/-- Settles O17: the placed machine runs, its fetch begins with the word's bytes, and they decode to its command. -/
theorem placedTableWordIsRun : Obligations.PlacedTableWordIsRun := by
  intro s nbits w i hl hw hn hi
  obtain ⟨j, rest, hd, hexec⟩ := decode_tableLayout hi
  obtain ⟨following, hf⟩ := withFetchWord_fetchBytes hw nbits w
  have hfetch : (s.withFetchWord nbits w).fetch = .ok (j, rest ++ following) := by
    rw [State.fetch, ← hf]
    exact decode_append hd following
  rw [step_run rfl (withFetchWord_configLegal hl nbits w) (hostTurn_of_nil hn), stepCommand, hfetch]
  exact hexec _

end Sys2Proof.Machine
end

section
/-! SUPPORT. Rules R56 to R61, R89, R90, R106: one sample on each path, the frame of a wait, and a host call that comes
due inside a wait. -/

namespace Sys2Proof.Machine

/-! One sample. -/

theorem sampleTicks_fast {s : State} (hq : s.cfg.q = 0#8) :
    sampleTicks s = { s with psg := advanceTick s.cfg.fb s.src.binc s.psg } := if_pos hq

theorem sampleTicks_accurate {s : State} (hq : s.cfg.q ≠ 0#8) :
    sampleTicks s = { s with
      src := { s.src with ctime := (accurateTicks s.cfg.fb s.src s.psg).1 }
      psg := (accurateTicks s.cfg.fb s.src s.psg).2 } := if_neg hq

/-- Settles O39: the ticks of the path, then the item of the mixer and the host's countdown. -/
theorem sampleRunsTheTicksOfItsPath : Obligations.SampleRunsTheTicksOfItsPath := by
  refine fun s => ⟨fun hq => ?_, fun hq => ?_⟩
  · rw [sampleAndEmit, sampleTicks_fast hq, emit]
  · rw [sampleAndEmit, sampleTicks_accurate hq, emit]

/-! The frame of a wait. -/

/-- A wait command generates its samples and retires past its bytes (rules R56 to R58). -/
theorem WaitForm.exec_eq {i : Instr} {n len : Nat} (hf : WaitForm i n len) (s : State) :
    exec i s = waitCommand n len s := by
  rcases hf with ⟨rfl, rfl⟩ | ⟨rfl, rfl, rfl⟩ | ⟨rfl, rfl⟩ <;> rfl

/-- Samples keep the programmed registers. -/
theorem iterate_sampleAndEmit_settings (s : State) (n : Nat) : samePsgSettings s.psg (sampleAndEmit^[n] s).psg :=
  Function.Iterate.rec (fun t : State => samePsgSettings s.psg t.psg) (samePsgSettings_refl _)
    (fun t ht => samePsgSettings_trans ht (sampleAndEmit_settings t)) n

/-- Samples bring up no host call where none is pending. -/
theorem iterate_sampleAndEmit_host {s : State} (hn : s.host = []) (n : Nat) : (sampleAndEmit^[n] s).host = [] :=
  Function.Iterate.rec (fun t : State => t.host = []) hn
    (fun t ht => by rw [(sampleAndEmit_sampled t).host, ht, afterCoreOp_nil]) n

/-- Settles O28: each wait is its samples and then the cursor; the samples keep all that is programmed. -/
theorem waitsKeepTheProgrammedRegisters : Obligations.WaitsKeepTheProgrammedRegisters := by
  intro s n hn i hi
  obtain ⟨m, len, hf⟩ : ∃ m len, WaitForm i m len := by
    rcases hi with rfl | rfl | rfl
    · exact ⟨n, 3, .inl ⟨rfl, rfl⟩⟩
    · exact ⟨n, 1, .inr (.inr ⟨rfl, rfl⟩)⟩
    · exact ⟨735, 1, .inr (.inl ⟨rfl, rfl, rfl⟩)⟩
  have hg := genSamples_of_nil m s hn
  have hr := genSamples_ran m s _ hg
  refine ⟨_, (hf.exec_eq s).trans (waitCommand_of_some hg), iterate_sampleAndEmit_settings s m,
    (genSamples_sameHostRegisters hn hg).src, hr.cfg, ?_, fun a => ?_, ?_, iterate_sampleAndEmit_host hn m⟩
  · rw [retire_stream, hr.stream]
  · rw [retire_stream, hr.stream]
  · rw [retire_csd, hr.csd]

/-! A host call inside a wait. -/

/-- A sample reads nothing of the host's list; it brings the first call nearer. -/
theorem sampleAndEmit_withHostCalls (s : State) (calls : List HostCall) :
    sampleAndEmit (s.withHostCalls calls) = (sampleAndEmit s).withHostCalls (afterCoreOp calls) := by
  unfold sampleAndEmit sampleTicks
  by_cases h : s.cfg.q = 0#8 <;> simp [h, emit, State.withHostCalls]

/-- A call that is `k` operations away lets `k` samples go by and is then due (log entry 6). -/
theorem genSamples_until_due (k : Nat) (s : State) (op : HostOp) :
    genSamples k (s.withHostCalls [{ delay := k, op := op }]) =
      some ((sampleAndEmit^[k] s).withHostCalls [{ delay := 0, op := op }]) := by
  induction k generalizing s with
  | zero => rfl
  | succ k ih =>
    have hturn : hostTurn (s.withHostCalls [{ delay := k + 1, op := op }]) = some _ :=
      hostTurn_of_not_due (by simp)
    rw [genSamples_succ, hturn, Option.bind_some, sampleAndEmit_withHostCalls, Function.iterate_succ_apply]
    exact ih (sampleAndEmit s)

/-- A host operation leaves the host's list alone. -/
theorem HostOp.apply_host {op : HostOp} {s u : State} (h : op.apply s = some u) : u.host = s.host := by
  cases op with
  | reset => cases h; rfl
  | setRate r =>
    obtain ⟨-, hu⟩ := Option.ite_none_right_eq_some.1 h
    cases hu
    rfl

/-- A call that is due, with none behind it, takes place and leaves no call pending (log entry 7). -/
theorem hostTurn_single_due {s u : State} {op : HostOp} (hn : u.host = []) (h : op.apply s = some u) :
    hostTurn (s.withHostCalls [{ delay := 0, op := op }]) = some u := by
  have hdue : runDue [{ delay := 0, op := op }] s = some u := by simp [runDue, h, ← hn]
  exact (runDue_host _ s _).trans hdue

/-- Settles O45: `k` samples, the call, and the samples that are left, of which there is one at least. -/
theorem hostCallActsBetweenSamples : Obligations.HostCallActsBetweenSamples := by
  intro s u n k op hn hk hu
  obtain ⟨m, rfl⟩ : ∃ m, n = k + (m + 1) := ⟨n - k - 1, by omega⟩
  have hnone : u.host = [] := (HostOp.apply_host hu).trans (iterate_sampleAndEmit_host hn k)
  have hrest : genSamples (m + 1) ((sampleAndEmit^[k] s).withHostCalls [{ delay := 0, op := op }]) =
      some (sampleAndEmit^[m + 1] u) := by
    rw [← genSamples_of_nil (m + 1) u hnone, genSamples_succ, genSamples_succ, hostTurn_single_due hnone hu,
      hostTurn_of_nil hnone]
  have hall : genSamples (k + (m + 1)) (s.withHostCalls [{ delay := k, op := op }]) =
      some (sampleAndEmit^[m + 1] u) := by
    rw [genSamples_add, genSamples_until_due, Option.bind_some, hrest]
  rw [Nat.add_sub_cancel_left]
  exact waitCommand_of_some hall

end Sys2Proof.Machine
end

section
/-! SUPPORT. Rules R44 to R53: the operands of the waits as counts and as bytes, the rows of the write-byte map, and the
statements about the encodings of both levels. -/

namespace Sys2Proof.Machine

/-! The operands of the waits. -/

/-- The two operand bytes of a count that fits them give the count back (rules R35, R53). -/
theorem waitCount_ofNat {n : Nat} (h : n ≤ 65535) :
    waitCount (BitVec.ofNat 8 (n % 256)) (BitVec.ofNat 8 (n / 256)) = n := by
  simp only [waitCount, BitVec.toNat_ofNat]
  omega

theorem waitCount_le (lo hi : Byte) : waitCount lo hi ≤ 65535 := by
  have hlo := lo.isLt
  have hhi := hi.isLt
  unfold waitCount
  omega

/-- The operand bytes of a WAIT are the two halves of its count. -/
theorem ofNat_waitCount (lo hi : Byte) :
    BitVec.ofNat 8 (waitCount lo hi % 256) = lo ∧ BitVec.ofNat 8 (waitCount lo hi / 256) = hi := by
  have hlo := lo.isLt
  have hhi := hi.isLt
  constructor <;> apply BitVec.eq_of_toNat_eq <;> simp only [waitCount, BitVec.toNat_ofNat] <;> omega

/-- The opcode byte of a short wait as a number (rule R53). -/
theorem waitsOpcode_toNat {n : Nat} (h : n ≤ 16) : (0x70#8 + BitVec.ofNat 8 (n - 1)).toNat = 0x70 + (n - 1) := by
  simp only [BitVec.toNat_add, BitVec.toNat_ofNat]
  omega

/-- The opcode byte of a count from 1 to 16 is one of the 16 of WAITS, and gives the count back. -/
theorem waitsCount_waitsOpcode {n : Nat} (h1 : 1 ≤ n) (h16 : n ≤ 16) :
    (0x70#8 + BitVec.ofNat 8 (n - 1)).extractLsb' 4 4 = 0x7#4 ∧
      waitsCount (0x70#8 + BitVec.ofNat 8 (n - 1)) = n := by
  have hop := waitsOpcode_toNat h16
  have hnibble := (high_nibble_seven (0x70#8 + BitVec.ofNat 8 (n - 1))).2 (by omega)
  refine ⟨hnibble, ?_⟩
  rw [waitsCount_eq _ hnibble]
  omega

/-- An opcode of WAITS is the opcode byte of its count, which is from 1 to 16. -/
theorem waitsOpcode_waitsCount {op : Byte} (h : op.extractLsb' 4 4 = 0x7#4) :
    1 ≤ waitsCount op ∧ waitsCount op ≤ 16 ∧ 0x70#8 + BitVec.ofNat 8 (waitsCount op - 1) = op := by
  obtain ⟨hlo, hhi⟩ := (high_nibble_seven op).1 h
  have hcount := waitsCount_eq op h
  have h16 : waitsCount op ≤ 16 := by omega
  refine ⟨by omega, h16, BitVec.eq_of_toNat_eq ?_⟩
  rw [waitsOpcode_toNat h16]
  omega

/-! The stream commands. -/

/-- Settles O1: command by command; the two counts survive their encoding in the ranges of rule R53. -/
theorem streamCommandsDecodeAsEncoded : Obligations.StreamCommandsDecodeAsEncoded := by
  intro i rest hlevel hwf
  cases i with
  | wr dd => exact decode_wr dd rest
  | wait n =>
    have hn : n ≤ 65535 := of_decide_eq_true hwf
    refine (decode_wait _ _ rest).trans ?_
    rw [waitCount_ofNat hn]
  | wait735 => exact decode_wait735 rest
  | endOfStream => exact decode_endOfStream rest
  | waits n =>
    obtain ⟨h1, h16⟩ : 1 ≤ n ∧ n ≤ 16 := by simpa [Instr.wellFormed] using hwf
    obtain ⟨hnibble, hcount⟩ := waitsCount_waitsOpcode h1 h16
    refine (decode_waits _ rest hnibble).trans ?_
    rw [hcount]
  | lt0 _ | lv0 _ | lt1 _ | lv1 _ | lt2 _ | lv2 _ | ln _ | lv3 _ | data _ => cases hlevel

/-- Settles O3: each accepted command is rebuilt from the bytes it was read from. -/
theorem decodedBytesAreTheEncoding : Obligations.DecodedBytesAreTheEncoding := by
  intro bs i rest h
  rcases decode_ok_cases h with ⟨dd, rfl, rfl⟩ | ⟨lo, hi, rfl, rfl⟩ | ⟨rfl, rfl⟩ | ⟨rfl, rfl⟩ | ⟨op, hop, rfl, rfl⟩
  · exact ⟨rfl, rfl, rfl⟩
  · obtain ⟨hlo, hhi⟩ := ofNat_waitCount lo hi
    refine ⟨rfl, decide_eq_true (waitCount_le lo hi), ?_⟩
    rw [encode, hlo, hhi]
    rfl
  · exact ⟨rfl, rfl, rfl⟩
  · exact ⟨rfl, rfl, rfl⟩
  · obtain ⟨h1, h16, hbyte⟩ := waitsOpcode_waitsCount hop
    refine ⟨rfl, by simp [Instr.wellFormed, h1, h16], ?_⟩
    rw [encode, hbyte]
    rfl

/-- Settles O4: the value of byte 0 names the opcode, and the decoder's own lemma says what follows. -/
theorem opcodeMapOfByteZero : Obligations.OpcodeMapOfByteZero := by
  intro op rest
  have opcode : ∀ v : Byte, op.toNat = v.toNat → op = v := fun _ => BitVec.eq_of_toNat_eq
  refine ⟨fun h dd => ?_, fun h lo hi => ?_, fun h => ?_, fun h => ?_, fun hlo hhi => ?_, decode_unrecognised op rest⟩
  · rw [opcode 0x50#8 h, decode_wr]
  · rw [opcode 0x61#8 h, decode_wait, waitCount]
  · rw [opcode 0x62#8 h, decode_wait735]
  · rw [opcode 0x66#8 h, decode_endOfStream]
  · have hnibble := (high_nibble_seven op).2 ⟨hlo, hhi⟩
    rw [decode_waits op rest hnibble, waitsCount_eq op hnibble]

/-- The bytes an accepted command took, counted from byte 0 alone (rule R45). -/
theorem decode_ok_length {op : Byte} {bs rest : List Byte} {i : Instr} (h : decode (op :: bs) = .ok (i, rest)) :
    bs.length + 1 = rest.length + (if op.toNat = 0x50 then 2 else if op.toNat = 0x61 then 3 else 1) := by
  rcases decode_ok_cases h with ⟨dd, -, hb⟩ | ⟨lo, hi, -, hb⟩ | ⟨-, hb⟩ | ⟨-, hb⟩ | ⟨op', hop, -, hb⟩ <;>
    obtain ⟨rfl, rfl⟩ := List.cons.inj hb
  · rfl
  · rfl
  · rfl
  · rfl
  · obtain ⟨hlo, -⟩ := (high_nibble_seven op).1 hop
    rw [if_neg (by omega), if_neg (by omega)]

/-- An accepted command begins with a recognised byte. -/
theorem recognised_of_decode_ok {op : Byte} {bs rest : List Byte} {i : Instr} (h : decode (op :: bs) = .ok (i, rest)) :
    recognised op := by
  by_contra hr
  rw [decode_unrecognised op bs hr] at h
  cases h

/-- A recognised byte with the most operand bytes a command takes is accepted. -/
theorem decode_ok_of_recognised {op : Byte} {bs : List Byte} (hr : recognised op) (hb : 2 ≤ bs.length) :
    ∃ i rest, decode (op :: bs) = .ok (i, rest) := by
  obtain ⟨x, y, r, rfl⟩ : ∃ x y r, bs = x :: y :: r := by
    match bs with
    | x :: y :: r => exact ⟨x, y, r, rfl⟩
  rcases (recognised_iff op).1 hr with rfl | rfl | rfl | rfl | hop
  · exact ⟨_, _, decode_wr x (y :: r)⟩
  · exact ⟨_, _, decode_wait x y r⟩
  · exact ⟨_, _, decode_wait735 _⟩
  · exact ⟨_, _, decode_endOfStream _⟩
  · exact ⟨_, _, decode_waits op _ hop⟩

/-- Settles O5: the bytes taken, the refusal and the acceptance, each by byte 0. -/
theorem lengthFromByteZero : Obligations.LengthFromByteZero := fun op bs =>
  ⟨fun _ _ h => ⟨decode_ok_length h, recognised_of_decode_ok h⟩, decode_unrecognised op bs, decode_ok_of_recognised⟩

/-- Settles O7: words of each stream command and of four write-byte forms, evaluated. -/
theorem specWordsDecode : Obligations.SpecWordsDecode := by
  unfold Obligations.SpecWordsDecode
  decide

/-! The write byte. -/

@[simp] theorem decodeWrite_lt0 (d : BitVec 4) : decodeWrite (0x8#4 ++ d) = .lt0 d := decodeWrite_pl _ d rfl
@[simp] theorem decodeWrite_lv0 (d : BitVec 4) : decodeWrite (0x9#4 ++ d) = .lv0 d := decodeWrite_pl _ d rfl
@[simp] theorem decodeWrite_lt1 (d : BitVec 4) : decodeWrite (0xA#4 ++ d) = .lt1 d := decodeWrite_pl _ d rfl
@[simp] theorem decodeWrite_lv1 (d : BitVec 4) : decodeWrite (0xB#4 ++ d) = .lv1 d := decodeWrite_pl _ d rfl
@[simp] theorem decodeWrite_lt2 (d : BitVec 4) : decodeWrite (0xC#4 ++ d) = .lt2 d := decodeWrite_pl _ d rfl
@[simp] theorem decodeWrite_lv2 (d : BitVec 4) : decodeWrite (0xD#4 ++ d) = .lv2 d := decodeWrite_pl _ d rfl
@[simp] theorem decodeWrite_ln (d : BitVec 4) : decodeWrite (0xE#4 ++ d) = .ln d := decodeWrite_pl _ d rfl
@[simp] theorem decodeWrite_lv3 (d : BitVec 4) : decodeWrite (0xF#4 ++ d) = .lv3 d := decodeWrite_pl _ d rfl

/-- A write-byte form is one byte, and decodes from it. -/
theorem decodeWrite_of_encode {i : Instr} (h : i.level = .writeByte) : ∃ v, encode i = [v] ∧ decodeWrite v = i := by
  cases i with
  | lt0 d => exact ⟨_, rfl, decodeWrite_lt0 d⟩
  | lv0 d => exact ⟨_, rfl, decodeWrite_lv0 d⟩
  | lt1 d => exact ⟨_, rfl, decodeWrite_lt1 d⟩
  | lv1 d => exact ⟨_, rfl, decodeWrite_lv1 d⟩
  | lt2 d => exact ⟨_, rfl, decodeWrite_lt2 d⟩
  | lv2 d => exact ⟨_, rfl, decodeWrite_lv2 d⟩
  | ln d => exact ⟨_, rfl, decodeWrite_ln d⟩
  | lv3 d => exact ⟨_, rfl, decodeWrite_lv3 d⟩
  | data e => exact ⟨_, rfl, decodeWrite_pd e⟩
  | wr _ | wait _ | wait735 | endOfStream | waits _ => cases h

/-- Rule R51: every byte is the encoding of a row of the write-byte map, its data field read off the byte. -/
theorem encode_row_eq (v : Byte) :
    encode (.data (v.extractLsb' 0 7)) = [v] ∨ encode (.lt0 (plData v)) = [v] ∨ encode (.lv0 (plData v)) = [v] ∨
      encode (.lt1 (plData v)) = [v] ∨ encode (.lv1 (plData v)) = [v] ∨ encode (.lt2 (plData v)) = [v] ∨
      encode (.lv2 (plData v)) = [v] ∨ encode (.ln (plData v)) = [v] ∨ encode (.lv3 (plData v)) = [v] := by
  revert v; decide

/-- Every byte is the encoding of a write-byte form. -/
theorem exists_encode_eq (v : Byte) : ∃ i : Instr, i.level = .writeByte ∧ encode i = [v] := by
  rcases encode_row_eq v with h | h | h | h | h | h | h | h | h <;> exact ⟨_, rfl, h⟩

/-- Settles O2: the form a byte encodes is the one it decodes to, since a form decodes from its byte. -/
theorem writeBytesDecodeAsEncoded : Obligations.WriteBytesDecodeAsEncoded := by
  refine ⟨fun i => decodeWrite_of_encode, fun v => ?_⟩
  obtain ⟨i, hlevel, hv⟩ := exists_encode_eq v
  obtain ⟨w, hw, hdecode⟩ := decodeWrite_of_encode hlevel
  obtain rfl : v = w := List.singleton_inj.1 (hv.symm.trans hw)
  rw [hdecode]
  exact ⟨hlevel, hv⟩

/-- A word is its upper bits followed by what is left of it. -/
theorem eq_append_of_range {w k : Nat} {m : BitVec w} {v : BitVec (w + k)} (hlo : m.toNat * 2 ^ k ≤ v.toNat)
    (hhi : v.toNat < m.toNat * 2 ^ k + 2 ^ k) : v = m ++ BitVec.ofNat k (v.toNat - m.toNat * 2 ^ k) := by
  have hlt : v.toNat - m.toNat * 2 ^ k < 2 ^ k := by omega
  apply BitVec.eq_of_toNat_eq
  rw [BitVec.toNat_append, BitVec.toNat_ofNat, Nat.mod_eq_of_lt hlt, ← Nat.shiftLeft_add_eq_or_of_lt hlt,
    Nat.shiftLeft_eq]
  omega

/-- The bytes of a high nibble decode to its form, the rest being the data field (rule R48). -/
theorem decodeWrite_of_range {m : BitVec 4} {form : BitVec 4 → Instr} (hm : ∀ d, decodeWrite (m ++ d) = form d)
    {v : Byte} (hlo : m.toNat * 16 ≤ v.toNat) (hhi : v.toNat < m.toNat * 16 + 16) :
    decodeWrite v = form (BitVec.ofNat 4 (v.toNat - m.toNat * 16)) :=
  (congrArg decodeWrite (eq_append_of_range (k := 4) hlo hhi)).trans (hm _)

/-- The bytes below 0x80 decode to DATA (rule R48). -/
theorem decodeWrite_of_lt {v : Byte} (h : v.toNat < 0x80) : decodeWrite v = .data (BitVec.ofNat 7 v.toNat) :=
  (congrArg decodeWrite (eq_append_of_range (m := 0#1) (k := 7) (Nat.zero_le _) h)).trans (decodeWrite_pd _)

/-- Settles O6: each range is a high nibble with all its data fields, or the bytes with bit 7 clear. -/
theorem writeByteMapOfAllValues : Obligations.WriteByteMapOfAllValues := fun v =>
  ⟨decodeWrite_of_lt, decodeWrite_of_range decodeWrite_lt0, decodeWrite_of_range decodeWrite_lv0,
    decodeWrite_of_range decodeWrite_lt1, decodeWrite_of_range decodeWrite_lv1, decodeWrite_of_range decodeWrite_lt2,
    decodeWrite_of_range decodeWrite_lv2, decodeWrite_of_range decodeWrite_ln,
    fun h => decodeWrite_of_range decodeWrite_lv3 h v.isLt⟩

end Sys2Proof.Machine
end

section
/-! SUPPORT. Rules R50, R73: what DATA does, by the register `LATCH` names. -/

namespace Sys2Proof.Machine

theorem data_of_tone {p : PsgCore} {i : Fin 3} (e : BitVec 7) (h : psgReg p.latch = .tone i) :
    data e p = writeToneHigh i (dataPeriodBits e) p := by
  rw [data, h]

theorem data_of_volume {p : PsgCore} {c : Fin 4} (e : BitVec 7) (h : psgReg p.latch = .volume c) :
    data e p = writeVolume c (dataAttenuation e) p := by
  rw [data, h]

theorem data_of_noiseControl {p : PsgCore} (e : BitVec 7) (h : psgReg p.latch = .noiseControl) :
    data e p = noiseCtl (dataControl e) p := by
  rw [data, h]

/-- Latching the address that is latched already changes nothing. -/
theorem setLatch_eq_self {a : BitVec 3} {p : PsgCore} (h : p.latch = a) : setLatch a p = p := by
  subst h
  rfl

/-- LN with the three control bits of a DATA byte has its noise-control value. -/
theorem lnControl_ofNat (e : BitVec 7) : lnControl (BitVec.ofNat 4 (e.toNat % 8)) = dataControl e := by
  apply BitVec.eq_of_toNat_eq
  rw [lnControl_toNat, dataControl_toNat, BitVec.toNat_ofNat]
  omega

/-- With the noise control latched, DATA is LN with the same three bits (rules R73, R74). -/
theorem data_eq_ln {p : PsgCore} (e : BitVec 7) (h : p.latch.toNat = 6) :
    data e p = ln (BitVec.ofNat 4 (e.toNat % 8)) p := by
  have hlatch : p.latch = 6#3 := BitVec.eq_of_toNat_eq h
  rw [data_of_noiseControl e (psgReg_noiseControl _ h), ln, lnControl_ofNat, setLatch_eq_self hlatch]

/-- Settles O22: the register behind the latched address, case by case. -/
theorem dataWritesTheLatchedRegister : Obligations.DataWritesTheLatchedRegister := by
  intro e s
  refine ⟨writeCommand (data e) s, rfl, writeCommand_wroteOnlyPsg _ s, fun i hi => ?_, fun c hc => ?_,
    fun h => ⟨_, rfl, data_eq_ln e h⟩⟩
  · rw [writeCommand_psg, data_of_tone e (psgReg_tone _ i hi), writeToneHigh, tone_setTone]
    exact ⟨rfl, by rw [withHighBits_toNat, dataPeriodBits_toNat]⟩
  · rw [writeCommand_psg, data_of_volume e (psgReg_volume _ c hc), writeVolume, att_setAtt]
    exact ⟨rfl, dataAttenuation_toNat e⟩

end Sys2Proof.Machine
end

section
/-! SUPPORT. Rules R54, R60, R97, R102: the step, by what stands at the cursor, and the machine that has stopped. -/

namespace Sys2Proof.Machine

theorem stepCommand_of_ok {s : State} {i : Instr} {rest : List Byte} (h : decode s.fetchBytes = .ok (i, rest)) :
    stepCommand s = exec i s := by
  rw [stepCommand, State.fetch, h]

theorem stepCommand_of_error {s : State} {e : DecodeError} (h : decode s.fetchBytes = .error e) :
    stepCommand s = .next (raiseDecodeError e s) := by
  rw [stepCommand, State.fetch, h]

theorem step_of_halt {s : State} (h : s.csd.status = .halt) : step s = .fault .runHalted := by
  rw [step, h]

theorem step_of_fault {s : State} (h : s.csd.status = .fault) : step s = .fault .runFaulted := by
  rw [step, h]

/-- Settles O10: the host's due calls, then the fetched command; with no call pending the host changes nothing. -/
theorem stepRunsTheDecodedCommand : Obligations.StepRunsTheDecodedCommand :=
  ⟨fun _ _ _ _ hr hl hh hd => (step_run hr hl hh).trans (stepCommand_of_ok hd), fun _ => hostTurn_of_nil⟩

/-- Settles O11: the decoder refuses the byte, and its refusal is the entry of the fault state. -/
theorem unsupportedOpcodeEntersFault : Obligations.UnsupportedOpcodeEntersFault :=
  fun _ _ hr hl hh hu => (step_run hr hl hh).trans (stepCommand_of_error (decode_of_unsupportedHere hu))

/-- Settles O14: a step looks at the status first. -/
theorem stoppedMachineHasNoStep : Obligations.StoppedMachineHasNoStep :=
  fun _ => ⟨step_of_halt, step_of_fault⟩

end Sys2Proof.Machine
end

section
/-! SUPPORT. Rules R55, R64 to R74: what WR does whatever its byte, and the forms that latch a register. -/

namespace Sys2Proof.Machine

/-- Settles O18: each form is the WR command that carries it. -/
theorem wrRunsItsWriteByte : Obligations.WrRunsItsWriteByte := exec_wr_eq_exec_decodeWrite

/-- Settles O19: each form writes the low half of its channel's period. -/
theorem toneLatchReplacesLowPeriodBits : Obligations.ToneLatchReplacesLowPeriodBits := fun d s =>
  ⟨⟨writeCommand (lt0 d) s, rfl, writeCommand_wroteOnlyPsg _ s, rfl, withLowBits_toNat _ d⟩,
    ⟨writeCommand (lt1 d) s, rfl, writeCommand_wroteOnlyPsg _ s, rfl, withLowBits_toNat _ d⟩,
    ⟨writeCommand (lt2 d) s, rfl, writeCommand_wroteOnlyPsg _ s, rfl, withLowBits_toNat _ d⟩⟩

/-- Settles O20: each form writes its channel's attenuation. -/
theorem volumeLatchSetsAttenuation : Obligations.VolumeLatchSetsAttenuation := fun d s =>
  ⟨⟨writeCommand (lv0 d) s, rfl, writeCommand_wroteOnlyPsg _ s, rfl⟩,
    ⟨writeCommand (lv1 d) s, rfl, writeCommand_wroteOnlyPsg _ s, rfl⟩,
    ⟨writeCommand (lv2 d) s, rfl, writeCommand_wroteOnlyPsg _ s, rfl⟩,
    ⟨writeCommand (lv3 d) s, rfl, writeCommand_wroteOnlyPsg _ s, rfl⟩⟩

/-- Settles O21: the noise control of rule R74 with the low three bits of the data field. -/
theorem noiseLatchAppliesControl : Obligations.NoiseLatchAppliesControl := by
  intro d s
  refine ⟨writeCommand (ln d) s, rfl, writeCommand_wroteOnlyPsg _ s, rfl, ?_⟩
  rw [← lnControl_toNat]
  exact control_controlled (lnControl d) s.psg.noise

/-- Settles O23: what a write byte can change of the PSG core, and the frame of WR. -/
theorem writeTouchesNoCounter : Obligations.WriteTouchesNoCounter := by
  intro dd s
  have hw := psgWrite_written dd s.psg
  obtain ⟨hnc, hacc⟩ := hw.noise.keeps
  refine ⟨writeCommand (psgWrite dd) s, rfl, writeCommand_wroteOnlyPsg _ s, fun i => ?_, hnc, hacc, hw.stereo, hw.bph⟩
  obtain ⟨htc, hedge, hmute, hacci⟩ := hw.tone i
  exact ⟨htc, hedge, hacci, hmute⟩

end Sys2Proof.Machine
end

section
/-! SUPPORT. Rules R56 to R59, R61, R63: the three wait commands as forms of one count, and END. -/

namespace Sys2Proof.Machine

/-! The waits. -/

theorem WaitForm.wait (n : Nat) : WaitForm (.wait n) n 3 := .inl ⟨rfl, rfl⟩
theorem WaitForm.wait735 : WaitForm .wait735 735 1 := .inr (.inl ⟨rfl, rfl, rfl⟩)
theorem WaitForm.waits (n : Nat) : WaitForm (.waits n) n 1 := .inr (.inr ⟨rfl, rfl⟩)

/-- A wait answers just when its samples can be generated: the state after them, past the command. -/
theorem WaitForm.exec_eq_next_iff {i : Instr} {n len : Nat} (hf : WaitForm i n len) {s t : State} :
    exec i s = .next t ↔ ∃ u, genSamples n s = some u ∧ t = retire len u := by
  rw [hf.exec_eq]
  refine ⟨waitCommand_next, ?_⟩
  rintro ⟨u, hu, rfl⟩
  exact waitCommand_of_some hu

/-- A wait completes under legal host calls, with its count of items. -/
theorem WaitForm.completes {i : Instr} {n len : Nat} (hf : WaitForm i n len) {s : State} (h : s.hostLegal = true) :
    ∃ t, exec i s = .next t ∧ waited n len s t := by
  obtain ⟨u, hu⟩ := genSamples_of_legal n s h
  exact ⟨retire len u, hf.exec_eq_next_iff.2 ⟨u, hu, rfl⟩, waited_of hu⟩

/-- With no call pending a wait is its rounds and the cursor past it. -/
theorem WaitForm.exec_of_host_nil {i : Instr} {n len : Nat} (hf : WaitForm i n len) {s : State} (hn : s.host = []) :
    exec i s = .next (retire len (sampleAndEmit^[n] s)) :=
  hf.exec_eq_next_iff.2 ⟨_, genSamples_of_nil n s hn, rfl⟩

/-- Two wait forms of one count differ only in where they leave the cursor (rule R63). -/
theorem WaitForm.exec_of_same_count {i j : Instr} {n len len' : Nat} (hi : WaitForm i n len) (hj : WaitForm j n len')
    {s t : State} (h : exec i s = .next t) :
    exec j s = .next { t with csd := { t.csd with cur := s.csd.cur + BitVec.ofNat 32 len' } } := by
  obtain ⟨u, hu, rfl⟩ := hi.exec_eq_next_iff.1 h
  refine hj.exec_eq_next_iff.2 ⟨u, hu, ?_⟩
  rw [← (genSamples_ran n s u hu).csd]
  rfl

/-- Where the first of two waits leaves the cursor makes no difference to the samples of the second. -/
theorem genSamples_after_retire {a b len : Nat} {s u v : State} (hu : genSamples a s = some u)
    (hv : genSamples b (retire len u) = some v) :
    ∃ w, genSamples (a + b) s = some w ∧ v = { w with csd := (retire len u).csd } := by
  obtain ⟨w, hw, rfl⟩ := Option.map_eq_some_iff.1 ((genSamples_csd b u (retire len u).csd).symm.trans hv)
  exact ⟨w, by rw [genSamples_add, hu, Option.bind_some, hw], rfl⟩

/-- Two waits in a row are one of their sum but for the cursor (rule R63). -/
theorem exec_wait_add {a b : Nat} {s t u : State} (ht : exec (.wait a) s = .next t) (hu : exec (.wait b) t = .next u) :
    exec (.wait (a + b)) s = .next { u with csd := { u.csd with cur := s.csd.cur + 3#32 } } := by
  obtain ⟨t', ht', rfl⟩ := (WaitForm.wait a).exec_eq_next_iff.1 ht
  obtain ⟨u', hu', rfl⟩ := (WaitForm.wait b).exec_eq_next_iff.1 hu
  obtain ⟨w, hw, rfl⟩ := genSamples_after_retire ht' hu'
  refine (WaitForm.wait (a + b)).exec_eq_next_iff.2 ⟨w, hw, ?_⟩
  simp only [retire, (genSamples_ran _ _ _ ht').csd, (genSamples_ran _ _ _ hw).csd]

/-- Settles O25: each wait form generates its samples, whatever the legal calls between them. -/
theorem waitsEmitTheirCount : Obligations.WaitsEmitTheirCount := fun _ h =>
  ⟨fun n => (WaitForm.wait n).completes h, WaitForm.wait735.completes h, fun n => (WaitForm.waits n).completes h⟩

/-- Settles O26: with no call pending the samples of each wait form are plain rounds. -/
theorem waitsRunTheirSamples : Obligations.WaitsRunTheirSamples := fun _ hn =>
  ⟨fun n => (WaitForm.wait n).exec_of_host_nil hn, WaitForm.wait735.exec_of_host_nil hn,
    fun n => (WaitForm.waits n).exec_of_host_nil hn⟩

/-- Settles O27: the samples do not depend on the form, nor on the cursor between two waits. -/
theorem waitFormsAgree : Obligations.WaitFormsAgree := fun _ _ =>
  ⟨fun n => (WaitForm.wait n).exec_of_same_count (.waits n), (WaitForm.wait 735).exec_of_same_count .wait735,
    fun _ _ _ => exec_wait_add⟩

/-! END. -/

theorem exec_endOfStream (s : State) :
    exec .endOfStream s = .next { s with csd := { s.csd with cur := s.csd.cur + 1#32, status := .halt } } := rfl

/-- Settles O29: the opcode byte alone makes the fetched command END. -/
theorem endHaltsWhateverFollows : Obligations.EndHaltsWhateverFollows := by
  refine ⟨exec_endOfStream, fun s hr hl hn hc hop => ?_⟩
  obtain ⟨rest, hd⟩ : ∃ rest, decode s.fetchBytes = .ok (.endOfStream, rest) :=
    ⟨_, by rw [fetchBytes_of_one hc, hop, decode_endOfStream]⟩
  rw [step_run hr hl (hostTurn_of_nil hn), stepCommand_of_ok hd, exec_endOfStream]

end Sys2Proof.Machine
end

section
/-! SUPPORT. Rules R54, R62, R104, R115: a ready machine has a step, a step leaves it ready or ended, and so its run
ends. -/

namespace Sys2Proof.Machine

theorem ready_iff (s : State) :
    s.ready = true ↔ s.csd.status = .run ∧ s.configLegal = true ∧ s.hostLegal = true := by
  simp [State.ready, and_assoc]

/-- Under legal host calls every instruction completes. -/
theorem exec_of_hostLegal (i : Instr) {s : State} (h : s.hostLegal = true) : ∃ t, exec i s = .next t := by
  cases i with
  | wait n => exact ((WaitForm.wait n).completes h).imp fun _ => And.left
  | wait735 => exact (WaitForm.wait735.completes h).imp fun _ => And.left
  | waits n => exact ((WaitForm.waits n).completes h).imp fun _ => And.left
  | _ => exact ⟨_, rfl⟩

/-- Settles O16: the host's legal calls act, and then a fault is entered or the fetched command completes. -/
theorem readyMachineAlwaysSteps : Obligations.ReadyMachineAlwaysSteps := by
  intro s h
  obtain ⟨hr, hl, hh⟩ := (ready_iff s).1 h
  obtain ⟨s', hs'⟩ := hostTurn_of_legal hh
  rw [step_run hr hl hs']
  rcases hd : decode s'.fetchBytes with e | ⟨i, rest⟩
  · exact ⟨_, stepCommand_of_error hd⟩
  · rw [stepCommand_of_ok hd]
    exact exec_of_hostLegal i (hostTurn_hostLegal hh hs')

/-! What a step keeps of readiness. -/

theorem sampleAndEmit_configLegal {s : State} (h : s.configLegal = true) : (sampleAndEmit s).configLegal = true := by
  have hs := sampleAndEmit_sampled s
  rw [State.configLegal, hs.cfg, hs.stream, hs.src]
  exact h

theorem genSamples_configLegal {n : Nat} {s t : State} (h : s.configLegal = true) (ht : genSamples n s = some t) :
    t.configLegal = true :=
  genSamples_induction (P := fun s => s.configLegal = true) (fun _ _ => hostTurn_configLegal)
    (fun _ => sampleAndEmit_configLegal) n s t h ht

@[simp] theorem raiseDecodeError_host (e : DecodeError) (s : State) : (raiseDecodeError e s).host = s.host := by
  rw [raiseDecodeError_keeps]

theorem CommandRan.configLegal {s t : State} (h : s.configLegal = true) (hr : CommandRan s t) :
    t.configLegal = true := by
  cases hr with
  | fault e => simpa [State.configLegal] using h
  | write dd inside => exact h
  | wait fetched form advances inside samples =>
    have hu := genSamples_configLegal h samples
    exact hu
  | halt inside => exact h

theorem CommandRan.hostLegal {s t : State} (h : s.hostLegal = true) (hr : CommandRan s t) : t.hostLegal = true := by
  cases hr with
  | fault e => simpa [State.hostLegal] using h
  | write dd inside => exact (afterCoreOp_all (HostOp.legal s.cfg s.stream.len) s.host).trans h
  | wait fetched form advances inside samples =>
    have hu := genSamples_hostLegal h samples
    exact hu
  | halt inside => exact h

/-- A step of a ready machine ends the run or leaves the machine ready. -/
theorem step_ended_or_ready {s t : State} (h : s.ready = true) (hstep : step s = .next t) :
    t.ended = true ∨ t.ready = true := by
  obtain ⟨-, hl, hh⟩ := (ready_iff s).1 h
  obtain ⟨-, s', hs', hr⟩ := step_ran hstep
  by_cases hrun : t.csd.status = .run
  · exact .inr ((ready_iff t).2
      ⟨hrun, hr.configLegal (hostTurn_configLegal hl hs'), hr.hostLegal (hostTurn_hostLegal hh hs')⟩)
  · exact .inl (decide_eq_true hrun)

/-- The bytes from the cursor to the end of the stream, which bound the steps still to come (rule R62). -/
def State.bytesLeft (s : State) : Nat := s.stream.len - s.csd.cur.toNat

/-- A ready machine has a step, and it ends the run or leaves the machine ready with fewer bytes before it. -/
theorem ready_step {s : State} (h : s.ready = true) :
    ∃ t, step s = .next t ∧ (t.ended = true ∨ t.ready = true ∧ t.bytesLeft < s.bytesLeft) := by
  obtain ⟨t, hstep⟩ := readyMachineAlwaysSteps s h
  refine ⟨t, hstep, ?_⟩
  rcases stepEndsOrAdvances s t hstep with hend | ⟨hcur, hin⟩
  · exact .inl hend
  · obtain ⟨-, hlen, -⟩ := stepNeverWritesStreamOrConfiguration s t hstep
    exact (step_ended_or_ready h hstep).imp_right fun hready => ⟨hready, by unfold State.bytesLeft; omega⟩

/-- The run of a ready machine ends, by recursion on the bytes left. -/
theorem run_ends_of_ready {s : State} (h : s.ready = true) :
    ∃ k t, k ≤ s.bytesLeft + 1 ∧ Host.Core.run Sys2Proof.core k s = .next t ∧ t.ended = true := by
  obtain ⟨t, hstep, hend | ⟨hready, hless⟩⟩ := ready_step h
  · exact ⟨1, t, by omega, core_run_next hstep 0, hend⟩
  · obtain ⟨k, u, hk, hrun, hend⟩ := run_ends_of_ready hready
    exact ⟨k + 1, u, by omega, (core_run_next hstep k).trans hrun, hend⟩
termination_by s.bytesLeft

/-- Settles O52: each step of a ready machine is the last or uses up a byte. -/
theorem everyRunEnds : Obligations.EveryRunEnds := fun _ => run_ends_of_ready

end Sys2Proof.Machine
end

section
/-! SUPPORT. Rule R75: the latch byte of a tone register and the data byte behind it, as one write of the period. -/

namespace Sys2Proof.Machine

/-- A tone latch has latched its own channel's period. -/
theorem psgReg_tone_ofNat (i : Fin 3) : psgReg (BitVec.ofNat 3 (2 * i.val)) = .tone i :=
  psgReg_tone _ i (by rw [BitVec.toNat_ofNat]; omega)

/-- The write bytes below 0x80 are DATA (rule R48). -/
theorem psgWrite_ofNat_of_lt {n : Nat} (h : n < 0x80) (p : PsgCore) :
    psgWrite (BitVec.ofNat 8 n) p = data (BitVec.ofNat 7 n) p := by
  have hn : BitVec.ofNat 8 n = 0#1 ++ BitVec.ofNat 7 n := by
    apply BitVec.eq_of_toNat_eq
    simp only [BitVec.toNat_append, BitVec.toNat_ofNat, Nat.zero_mod, Nat.zero_shiftLeft, Nat.zero_or]
    omega
  rw [hn, psgWrite_data]

/-- The two halves of a period, one write byte each, replace the period that was there. -/
theorem withHighBits_withLowBits_halves (tp p : BitVec 10) :
    withHighBits (withLowBits tp (BitVec.ofNat 4 p.toNat)) (dataPeriodBits (BitVec.ofNat 7 (p.toNat / 16))) = p := by
  apply BitVec.eq_of_toNat_eq
  rw [withHighBits_toNat, withLowBits_toNat, dataPeriodBits_toNat, BitVec.toNat_ofNat, BitVec.toNat_ofNat]
  have := p.isLt
  omega

/-- Both halves go to the same channel, and nothing but its period and `LATCH` is written. -/
theorem writeToneHigh_writeToneLow_setLatch (i : Fin 3) (e : BitVec 6) (d : BitVec 4) (a : BitVec 3) (p : PsgCore) :
    writeToneHigh i e (writeToneLow i d (setLatch a p)) =
      { p.setTone i { p.tone i with tp := withHighBits (withLowBits (p.tone i).tp d) e } with latch := a } := by
  fin_cases i <;> rfl

/-- A tone latch, then DATA: both halves of the latched channel's period. -/
theorem data_writeToneLow_setLatch (i : Fin 3) (e : BitVec 7) (d : BitVec 4) (p : PsgCore) :
    data e (writeToneLow i d (setLatch (BitVec.ofNat 3 (2 * i.val)) p)) =
      { p.setTone i { p.tone i with tp := withHighBits (withLowBits (p.tone i).tp d) (dataPeriodBits e) } with
        latch := BitVec.ofNat 3 (2 * i.val) } := by
  have hreg : psgReg (writeToneLow i d (setLatch (BitVec.ofNat 3 (2 * i.val)) p)).latch = .tone i := by
    rw [writeToneLow, setTone_latch, setLatch_latch, psgReg_tone_ofNat]
  rw [data_of_tone e hreg, writeToneHigh_writeToneLow_setLatch]

/-- The programming protocol of rule R75 on the PSG core. -/
theorem psgWrite_psgWrite_period (i : Fin 3) (p : BitVec 10) (q : PsgCore) :
    psgWrite (BitVec.ofNat 8 (p.toNat / 16)) (psgWrite (BitVec.ofNat 8 (0x80 + 0x20 * i.val + p.toNat % 16)) q) =
      { q.setTone i { q.tone i with tp := p } with latch := BitVec.ofNat 3 (2 * i.val) } := by
  have hhigh : p.toNat / 16 < 0x80 := by have := p.isLt; omega
  have hlow : p.toNat % 16 = (BitVec.ofNat 4 p.toNat).toNat := (BitVec.toNat_ofNat p.toNat 4).symm
  rw [psgWrite_ofNat_of_lt hhigh, hlow, psgWrite_toneLatch, data_writeToneLow_setLatch, withHighBits_withLowBits_halves]

/-- Settles O24: two WR commands, their write bytes being the protocol of rule R75. -/
theorem twoWritesSetTheWholePeriod : Obligations.TwoWritesSetTheWholePeriod := by
  intro i p s
  refine ⟨_, _, rfl, rfl, psgWrite_psgWrite_period i p s.psg, ?_⟩
  exact BitVec.add_assoc s.csd.cur 2#32 2#32

end Sys2Proof.Machine
end

section
/-! SUPPORT. Rules R77 to R86: the tick engine run for several invocations of `AdvanceTick`: the chip ticks it applies,
the counters and the edges they drive, and the rotation of the periodic seed. -/

namespace Sys2Proof.Machine

/-! The phase accumulator. -/

/-- Settles O30: division with remainder by `2^24`, of a sum below `2^24 + 2^32`. -/
theorem phaseStepSplitsTheSum : Obligations.PhaseStepSplitsTheSum := by
  intro fb binc p n p'
  have hsplit : 2 ^ 24 * n + p'.bph.toNat = p.bph.toNat + binc.toNat := phase_split p.bph binc
  have hbph := p.bph.isLt
  have hbph' := p'.bph.isLt
  refine ⟨hsplit, phaseTicks_le p.bph binc, fun hone => ?_, fun hnone => by omega⟩
  exact ⟨by omega, BitVec.eq_of_toNat_eq (by omega)⟩

/-- The chip ticks that `k` invocations apply in all (rule R78). -/
def chipTicks (bph : BitVec 24) (binc : BitVec 32) (k : Nat) : Nat := (bph.toNat + k * binc.toNat) / 2 ^ 24

@[simp] theorem chipTicks_zero (bph : BitVec 24) (binc : BitVec 32) : chipTicks bph binc 0 = 0 := by
  rw [chipTicks, Nat.zero_mul, Nat.add_zero, Nat.div_eq_of_lt bph.isLt]

theorem iterate_bph (fb : BitVec 16) (binc : BitVec 32) (p : PsgCore) (k : Nat) :
    ((advanceTick fb binc)^[k] p).bph.toNat = (p.bph.toNat + k * binc.toNat) % 2 ^ 24 := by
  induction k with
  | zero => simp [Nat.mod_eq_of_lt p.bph.isLt]
  | succ k ih =>
    rw [Function.iterate_succ_apply', advanceTick_bph, phaseRest, phaseSum, BitVec.toNat_ofNat, ih, Nat.mod_add_mod,
      Nat.add_assoc, ← Nat.succ_mul]

/-- One more invocation applies its own whole ticks. -/
theorem chipTicks_succ (fb : BitVec 16) (binc : BitVec 32) (p : PsgCore) (k : Nat) :
    chipTicks p.bph binc (k + 1) =
      chipTicks p.bph binc k + phaseTicks ((advanceTick fb binc)^[k] p).bph binc := by
  rw [phaseTicks, phaseSum, iterate_bph, chipTicks, chipTicks, Nat.succ_mul]
  omega

/-- At one chip tick per invocation, `k` invocations are `k` chip ticks. -/
theorem chipTicks_one (bph : BitVec 24) (k : Nat) : chipTicks bph (BitVec.ofNat 32 (2 ^ 24)) k = k := by
  have hbph := bph.isLt
  rw [chipTicks, BitVec.toNat_ofNat]
  omega

theorem sum_phaseTicks (fb : BitVec 16) (binc : BitVec 32) (p : PsgCore) (k : Nat) :
    ((List.range k).map fun j => phaseTicks ((advanceTick fb binc)^[j] p).bph binc).sum = chipTicks p.bph binc k := by
  induction k with
  | zero => simp
  | succ k ih =>
    rw [List.range_succ, List.map_append, List.sum_append, ih, chipTicks_succ fb, List.map_singleton,
      List.sum_singleton]

/-- Settles O31: the total is the quotient and the fraction left the remainder of the whole sum. -/
theorem phaseKeepsTheRunningTotal : Obligations.PhaseKeepsTheRunningTotal := by
  intro fb binc p k total
  have htotal : total = chipTicks p.bph binc k := sum_phaseTicks fb binc p k
  rw [htotal, iterate_bph]
  refine ⟨Nat.div_add_mod _ _, fun h => ?_⟩
  rw [chipTicks, h, BitVec.toNat_zero, Nat.zero_add]

/-! The tone channels. -/

/-- Settles O32: the three cases of `ToneStep`. -/
theorem toneCounterTick : Obligations.ToneCounterTick := by
  intro fb binc p i n c t'
  have ht : t' = tickTone n (p.tone i) := advanceTick_tone fb binc p i
  rw [ht]
  exact ⟨toneStep_below n _, toneStep_toggle n _, toneStep_degenerate n _,
    tickTone_tp .., tickTone_att .., tickTone_mute ..⟩

theorem iterate_tone_tp (fb : BitVec 16) (binc : BitVec 32) (p : PsgCore) (i : Fin 3) (k : Nat) :
    (((advanceTick fb binc)^[k] p).tone i).tp = (p.tone i).tp :=
  Function.Iterate.rec (fun q : PsgCore => (q.tone i).tp = (p.tone i).tp) rfl
    (fun q hq => by rw [advanceTick_tone, tickTone_tp, hq]) k

/-- Rule R84: with a degenerate period no step takes anything from the counter or lowers the edge. -/
theorem toneStep_of_degenerate {n : Nat} {t : Tone} (hp : t.tp.toNat ≤ 1) :
    (toneStep n t).tc.toNat = (t.tc.toNat + n) % 2048 ∧
      ((toneStep n t).edge = true ↔ t.edge = true ∨ 1024 ≤ (t.tc.toNat + n) % 2048) := by
  by_cases h : 1024 ≤ (t.tc.toNat + n) % 2048
  · obtain ⟨htc, hedge⟩ := toneStep_degenerate n t h hp
    exact ⟨htc, by simp [hedge, h]⟩
  · obtain ⟨htc, hedge⟩ := toneStep_below n t (by omega)
    exact ⟨htc, by simp [hedge, h]⟩

theorem iterate_tone_tc_of_degenerate (fb : BitVec 16) (binc : BitVec 32) {p : PsgCore} {i : Fin 3}
    (hp : (p.tone i).tp.toNat ≤ 1) (k : Nat) :
    (((advanceTick fb binc)^[k] p).tone i).tc.toNat = ((p.tone i).tc.toNat + chipTicks p.bph binc k) % 2048 := by
  induction k with
  | zero => simp [Nat.mod_eq_of_lt (p.tone i).tc.isLt]
  | succ k ih =>
    rw [Function.iterate_succ_apply', advanceTick_tone, tickTone_tc,
      (toneStep_of_degenerate (by rwa [iterate_tone_tp])).1, ih, chipTicks_succ fb, Nat.mod_add_mod, Nat.add_assoc]

theorem iterate_tone_edge_of_degenerate (fb : BitVec 16) (binc : BitVec 32) {p : PsgCore} {i : Fin 3}
    (hp : (p.tone i).tp.toNat ≤ 1) (k : Nat) :
    (((advanceTick fb binc)^[k] p).tone i).edge = true ↔ (p.tone i).edge = true ∨
      ∃ j, 0 < j ∧ j ≤ k ∧ 1024 ≤ ((p.tone i).tc.toNat + chipTicks p.bph binc j) % 2048 := by
  induction k with
  | zero => simp
  | succ k ih =>
    have htc := iterate_tone_tc_of_degenerate fb binc hp (k + 1)
    rw [Function.iterate_succ_apply', advanceTick_tone] at htc ⊢
    obtain ⟨hcount, hedge⟩ := toneStep_of_degenerate (n := phaseTicks ((advanceTick fb binc)^[k] p).bph binc)
      (t := ((advanceTick fb binc)^[k] p).tone i) (by rwa [iterate_tone_tp])
    rw [tickTone_edge, hedge, ih, ← hcount, ← tickTone_tc, htc, or_assoc]
    refine or_congr_right ⟨?_, ?_⟩
    · rintro (⟨j, hj, hjk, hcross⟩ | hcross)
      · exact ⟨j, hj, by omega, hcross⟩
      · exact ⟨k + 1, by omega, le_rfl, hcross⟩
    · rintro ⟨j, hj, hjk, hcross⟩
      rcases Nat.le_succ_iff.1 hjk with hle | rfl
      · exact .inl ⟨j, hj, hle, hcross⟩
      · exact .inr hcross

/-- Settles O36: by induction on the invocations; the closed form of the counter says when bit 10 is found set. -/
theorem degeneratePeriodHoldsTheEdge : Obligations.DegeneratePeriodHoldsTheEdge := by
  intro fb binc p i k hp count t'
  have hedge := iterate_tone_edge_of_degenerate fb binc hp k
  exact ⟨iterate_tone_tc_of_degenerate fb binc hp k, iterate_tone_tp fb binc p i k, fun hhigh => hedge.2 (.inl hhigh),
    hedge⟩

/-! Below the thresholds. -/

/-- While its counter stays below 1024 a tone channel only counts the chip ticks (rule R82). -/
theorem iterate_tone_below (fb : BitVec 16) (binc : BitVec 32) (p : PsgCore) (i : Fin 3) (k : Nat)
    (h : (p.tone i).tc.toNat + chipTicks p.bph binc k < 1024) :
    (((advanceTick fb binc)^[k] p).tone i).tc.toNat = (p.tone i).tc.toNat + chipTicks p.bph binc k ∧
      (((advanceTick fb binc)^[k] p).tone i).edge = (p.tone i).edge := by
  induction k with
  | zero => simp
  | succ k ih =>
    rw [chipTicks_succ fb] at h ⊢
    obtain ⟨htc, hedge⟩ := ih (by omega)
    rw [Function.iterate_succ_apply', advanceTick_tone, tickTone_tc, tickTone_edge]
    obtain ⟨htc', hedge'⟩ := toneStep_below (phaseTicks ((advanceTick fb binc)^[k] p).bph binc)
      (((advanceTick fb binc)^[k] p).tone i) (by omega)
    exact ⟨by omega, hedge'.trans hedge⟩

/-- While its counter stays below 256 the noise channel only counts the chip ticks (rule R79). -/
theorem iterate_noise_below (fb : BitVec 16) (binc : BitVec 32) (p : PsgCore) (k : Nat)
    (h : p.noise.nc.toNat + chipTicks p.bph binc k < 256) :
    ((advanceTick fb binc)^[k] p).noise.nc.toNat = p.noise.nc.toNat + chipTicks p.bph binc k ∧
      ((advanceTick fb binc)^[k] p).noise.seed = p.noise.seed := by
  induction k with
  | zero => simp
  | succ k ih =>
    rw [chipTicks_succ fb] at h ⊢
    obtain ⟨hnc, hseed⟩ := ih (by omega)
    rw [Function.iterate_succ_apply', advanceTick_noise, tickNoise_nc, tickNoise_seed]
    obtain ⟨hnc', hseed'⟩ := noiseStep_below fb ((advanceTick fb binc)^[k] p).tone2.tp
      (phaseTicks ((advanceTick fb binc)^[k] p).bph binc) ((advanceTick fb binc)^[k] p).noise (by omega)
    exact ⟨by omega, hseed'.trans hseed⟩

/-- Settles O37: from 0, at one chip tick per invocation, both counters are the number of invocations. -/
theorem noCrossingBeforeTheThreshold : Obligations.NoCrossingBeforeTheThreshold := by
  refine fun fb p k => ⟨fun i htc hedge hk => ?_, fun hnc hk => ?_⟩
  · have h := iterate_tone_below fb (BitVec.ofNat 32 (2 ^ 24)) p i k
    rw [chipTicks_one, htc, hedge, BitVec.toNat_zero, Nat.zero_add] at h
    exact (h hk).symm
  · have h := iterate_noise_below fb (BitVec.ofNat 32 (2 ^ 24)) p k
    rw [chipTicks_one, hnc, BitVec.toNat_zero, Nat.zero_add] at h
    exact (h hk).symm

/-! The periodic seed. -/

/-- `k` periodic shifts move every bit `k` places down, around the 16 bits (rule R80). -/
theorem iterate_shiftSeed_periodic_bit (fb seed : BitVec 16) (k i : Nat) (hi : i < 16) :
    ((shiftSeed .periodic fb)^[k] seed).getLsbD i = seed.getLsbD ((i + k) % 16) := by
  induction k generalizing i with
  | zero => rw [Nat.add_zero, Nat.mod_eq_of_lt hi]; rfl
  | succ k ih =>
    rw [Function.iterate_succ_apply', shiftSeed_periodic_bit fb _ i hi, ih _ (Nat.mod_lt _ (by decide)),
      Nat.mod_add_mod, Nat.add_right_comm, Nat.add_assoc]

theorem iterate_shiftSeed_periodic_twoPow (fb : BitVec 16) {k : Nat} (hk : k < 16) :
    (shiftSeed .periodic fb)^[k] (BitVec.twoPow 16 15) = BitVec.twoPow 16 (15 - k) := by
  refine BitVec.eq_of_getLsbD_eq fun i hi => ?_
  have hplace : 15 = (i + k) % 16 ↔ 15 - k = i := by omega
  have hin : 15 - k < 16 := by omega
  simp [iterate_shiftSeed_periodic_bit fb _ k i hi, BitVec.getLsbD_twoPow, hplace, hin]

/-- Settles O35: sixteen places are once around, and `k` places below bit 15 is bit `15 - k`. -/
theorem periodicSeedRotates : Obligations.PeriodicSeedRotates := by
  refine ⟨fun fb seed => BitVec.eq_of_getLsbD_eq fun i hi => ?_, fun fb k hk => ?_⟩
  · rw [iterate_shiftSeed_periodic_bit fb seed 16 i hi, Nat.add_mod_right, Nat.mod_eq_of_lt hi]
  · have htop : (0x8000#16 : BitVec 16) = BitVec.twoPow 16 15 := rfl
    rw [htop, iterate_shiftSeed_periodic_twoPow fb hk, BitVec.toNat_twoPow_of_lt (by omega)]

end Sys2Proof.Machine
end

section
/-! SUPPORT. Rules R76, R81, R83, R112: a PSG core that sounds nothing, which ticks and samples keep, and the waits
that are silence. -/

namespace Sys2Proof.Machine

/-- Every attenuation is 15 and every accumulator 0, as `Reset()` leaves them (rule R112). -/
def PsgCore.Silent (p : PsgCore) : Prop := ∀ c : Fin 4, p.att c = 15#4 ∧ p.acc c = 0#16

theorem silent_iff (p : PsgCore) : p.Silent ↔
    (∀ i, (p.tone i).att = 15#4 ∧ (p.tone i).acc = 0#16) ∧ p.noise.att = 15#4 ∧ p.noise.acc = 0#16 := by
  simp [PsgCore.Silent, Fin.forall_fin_succ, and_assoc]

/-- Attenuation 15 adds nothing to an accumulator, and half of 0 is 0. -/
theorem advanceTick_silent (fb : BitVec 16) (binc : BitVec 32) (p : PsgCore) (h : p.Silent) :
    (advanceTick fb binc p).Silent := by
  obtain ⟨ht, hatt, hacc⟩ := (silent_iff p).1 h
  refine (silent_iff _).2 ⟨fun i => ?_, ?_⟩
  · obtain ⟨hatti, hacci⟩ := ht i
    rw [advanceTick_tone, tickTone_att, tickTone_acc, hatti, hacci]
    exact ⟨rfl, smooth_silent _⟩
  · rw [advanceTick_noise, tickNoise_att, tickNoise_acc, hatt, hacc]
    exact ⟨rfl, smooth_silent _⟩

theorem sampleAndEmit_silent {s : State} (h : s.psg.Silent) : (sampleAndEmit s).psg.Silent :=
  sampleAndEmit_keeps advanceTick_silent s h

theorem accSum_eq_acc (p : PsgCore) :
    accSum p = (p.acc 0).toNat + (p.acc 1).toNat + (p.acc 2).toNat + (p.acc 3).toNat := rfl

theorem mix_silent (mode : OutMode) {p : PsgCore} (h : p.Silent) : mix mode p = silence mode := by
  have hacc : ∀ c, p.acc c = 0#16 := fun c => (h c).2
  have hear : ∀ bit c, enabledAcc p bit c = 0 := fun bit c => by simp [enabledAcc, hacc]
  cases mode with
  | mono =>
    have hsum : accSum p = 0 := by simp only [accSum_eq_acc, hacc, BitVec.toNat_zero]
    simp [mix, silence, mixMono, hsum]
  | stereo => simp [mix, silence, leftSum, rightSum, hear]

theorem sampleAndEmit_out_of_silent {s : State} (h : s.psg.Silent) :
    (sampleAndEmit s).out = s.out ++ [silence s.cfg.outMode] := by
  rw [State.out, sampleAndEmit_outRev, mix_silent _ (sampleAndEmit_silent h), List.reverse_cons, State.out]

theorem iterate_sampleAndEmit_of_silent (n : Nat) {s : State} (h : s.psg.Silent) :
    (sampleAndEmit^[n] s).out = s.out ++ List.replicate n (silence s.cfg.outMode) ∧
      (sampleAndEmit^[n] s).psg.Silent := by
  induction n generalizing s with
  | zero => exact ⟨(List.append_nil _).symm, h⟩
  | succ n ih =>
    rw [Function.iterate_succ_apply]
    obtain ⟨hout, hsilent⟩ := ih (sampleAndEmit_silent h)
    refine ⟨?_, hsilent⟩
    rw [hout, sampleAndEmit_out_of_silent h, (sampleAndEmit_sampled s).cfg, List.append_assoc]
    rfl

/-- Settles O41: with no call pending the wait is its samples, each of them silence. -/
theorem silenceAfterReset : Obligations.SilenceAfterReset := by
  intro s n hn h
  obtain ⟨hout, hsilent⟩ := iterate_sampleAndEmit_of_silent n h
  exact ⟨_, (WaitForm.wait n).exec_of_host_nil hn, (out_congr (retire_outRev 3 _)).trans hout, hsilent⟩

end Sys2Proof.Machine
end

section
/-! SUPPORT. Rules R91 to R93: the step constants as numbers, and what a due `SetRate` does. -/

namespace Sys2Proof.Machine

/-- Rule R92, the fast path: the stored quotient is the exact one where `ConfigLegal` bounds it. -/
theorem bincOf_fast_toNat {clk : BitVec 30} {rate : BitVec 32} {q : BitVec 8} (hq : q = 0#8)
    (h : fastQuotient clk rate < 2 ^ 32) : (bincOf clk rate q).toNat = fastQuotient clk rate := by
  rw [bincOf, if_pos hq, BitVec.toNat_ofNat, Nat.mod_eq_of_lt h]

/-- A quotient of `2^31`, as `RSTEP` and `CSTEP` are, fits in 32 bits whatever the divisor. -/
theorem ofNat_twoPow31_div_toNat (d : Nat) : (BitVec.ofNat 32 (2 ^ 31 / d)).toNat = 2 ^ 31 / d := by
  have hle : 2 ^ 31 / d ≤ 2 ^ 31 := Nat.div_le_self _ _
  rw [BitVec.toNat_ofNat, Nat.mod_eq_of_lt (by omega)]

/-- Rule R93, the accurate path. -/
theorem rstepOf_accurate_toNat (rate : BitVec 32) {q : BitVec 8} (hq : q ≠ 0#8) :
    (rstepOf rate q).toNat = 2 ^ 31 / rate.toNat := by
  rw [rstepOf, if_neg hq, ofNat_twoPow31_div_toNat]

theorem cstepOf_accurate_toNat (clk : BitVec 30) {q : BitVec 8} (hq : q ≠ 0#8) :
    (cstepOf clk q).toNat = 2 ^ 31 / (clk.toNat / 16) := by
  rw [cstepOf, if_neg hq, ofNat_twoPow31_div_toNat]

theorem hostSetRate_of_legal {r : BitVec 32} {s : State} (hl : configLegal s.cfg r s.stream.len = true) :
    hostSetRate r s = some { s with src := s.src.forRate s.cfg r } := if_pos hl

theorem hostSetRate_of_illegal {r : BitVec 32} {s : State} (hl : configLegal s.cfg r s.stream.len = false) :
    hostSetRate r s = none := by
  simp [hostSetRate, hl]

/-- A due `SetRate` alone: the call acts, and no call is left. -/
theorem hostTurn_setRate {s : State} {r : BitVec 32} (h : s.host = [{ delay := 0, op := .setRate r }]) :
    hostTurn s = (hostSetRate r s).map fun t => { t with host := [] } := by
  simp only [hostTurn, h, runDue, if_true, HostOp.apply]
  cases hostSetRate r s <;> rfl

/-- Settles O44: a legal rate makes the host leave `RateRegs.forRate`, whose registers are the formulas' numbers. -/
theorem setRateRecomputesTheConstants : Obligations.SetRateRecomputesTheConstants := by
  intro s r hhost
  rw [hostTurn_setRate hhost]
  refine ⟨fun hl => by rw [hostSetRate_of_illegal hl]; rfl, fun hl => ?_⟩
  obtain ⟨-, -, -, hquotient, -, -⟩ := (configLegal_iff s.cfg r s.stream.len).1 hl
  rw [hostSetRate_of_legal hl]
  refine ⟨_, rfl, rfl, effectiveRate_toNat r, fun hq => ⟨?_, if_pos hq, if_pos hq⟩, fun hq => ⟨?_, ?_, ?_⟩⟩
  · exact bincOf_fast_toNat hq (hquotient hq)
  · exact congrArg BitVec.toNat (if_neg hq)
  · exact rstepOf_accurate_toNat _ hq
  · exact cstepOf_accurate_toNat _ hq

end Sys2Proof.Machine
end

section
/-! SUPPORT. Rules R96 to R101: the two faults. Each situation the rules name is one refusal of the decoder, and a
command the decoder accepts leaves the machine running or halted. -/

namespace Sys2Proof.Machine

/-! Truncation. -/

/-- Settles O12: the decoder refuses what stands at the cursor, and its refusal is the entry of the fault state. -/
theorem truncatedStreamEntersFault : Obligations.TruncatedStreamEntersFault :=
  fun _ _ hr hl hh ht => (step_run hr hl hh).trans (stepCommand_of_error (decode_of_truncatedHere ht))

/-! The situations of the faults are the decoder's refusals. -/

theorem truncatedHere_iff (s : State) : s.truncatedHere ↔ decode s.fetchBytes = .error .truncatedStream := by
  refine ⟨decode_of_truncatedHere, fun h => ?_⟩
  rcases decode_error_cases h with ⟨-, ht⟩ | ⟨hne, -⟩
  · exact ht
  · cases hne

theorem unsupportedHere_iff (s : State) :
    s.unsupportedHere ↔ ∃ op, decode s.fetchBytes = .error (.unsupportedOpcode op) := by
  refine ⟨fun h => ⟨_, decode_of_unsupportedHere h⟩, fun ⟨_, h⟩ => ?_⟩
  rcases decode_error_cases h with ⟨hne, -⟩ | ⟨-, hu⟩
  · cases hne
  · exact hu

/-- A fetched command keeps `STATUS` or halts: only the decoder's refusal raises a fault (rule R96). -/
theorem exec_fetched_status {s t : State} {i : Instr} {rest : List Byte} (hd : decode s.fetchBytes = .ok (i, rest))
    (hx : exec i s = .next t) : t.csd.status = s.csd.status ∨ t.csd.status = .halt := by
  rcases exec_stream_cases (decode_level hd) hx with ⟨dd, -, rfl⟩ | ⟨n, len, u, -, hu, rfl⟩ | ⟨-, rfl⟩
  · exact .inl rfl
  · rw [retire_csd, (genSamples_ran _ _ _ hu).csd]
    exact .inl rfl
  · exact .inr rfl

/-- A fetched command of a running machine does not fault. -/
theorem exec_fetched_not_fault {s t : State} {i : Instr} {rest : List Byte} (hr : s.csd.status = .run)
    (hd : decode s.fetchBytes = .ok (i, rest)) (hx : exec i s = .next t) : t.csd.status ≠ .fault := by
  rcases exec_fetched_status hd hx with h | h <;> simp [h, hr]

/-- Settles O13: the decoder's answer at the cursor decides between the two faults and none. -/
theorem faultsAreRaisedExactlyThere : Obligations.FaultsAreRaisedExactlyThere := by
  intro s s' t hr hl hh hstep
  rw [truncatedHere_iff, unsupportedHere_iff]
  rw [step_run hr hl hh] at hstep
  rcases hd : decode s'.fetchBytes with e | ⟨i, rest⟩
  · obtain rfl : raiseDecodeError e s' = t := Host.Outcome.next.inj ((stepCommand_of_error hd).symm.trans hstep)
    cases e <;> simp [raiseDecodeError, raiseTruncatedStream, raiseUnsupportedOpcode]
  · have hrun : s'.csd.status = .run := by rw [(hostTurn_acted hh).csd, hr]
    have hok : t.csd.status ≠ .fault := exec_fetched_not_fault hrun hd ((stepCommand_of_ok hd).symm.trans hstep)
    simp [hok]

end Sys2Proof.Machine
end
